-- ==== Sys2Proof/Word.lean ====
section
/-! DEFINITION. The word types of the core: bytes, 16-bit register words, and the 104-bit instruction word of
30_encoding.md R79 with its 40-bit operand fields (R80). -/

namespace Sys2Proof

/-- One byte of Memory, or one byte half of a register slot (R23, R50). -/
abbrev Byte := BitVec 8

/-- A register slot or FLAGS (R20). -/
abbrev Word := BitVec 16

/-- The packed instruction word (R79). -/
abbrev PackedWord := BitVec 104

/-- One operand field of the packed instruction word (R80). -/
abbrev PackedOperand := BitVec 40

end Sys2Proof
end

