-- ==== Sys2Proof/Config.lean ====
section
/-! DEFINITION. The parameters of 00_scope.md R6 and the free values of 60_exceptions.md R174. -/

namespace Sys2Proof

/-- The two values of `IP_OVERFLOW_MODE` and of `COUNTER_UNDERFLOW_MODE` (R6). -/
inductive OverflowMode where
  | fault
  | wrap
  deriving DecidableEq, Repr

/-- The parameters of R6. They are an argument of the model, fixed for a run:
no step changes them. DESIGN CHOICE (log entry 2, safe): they stand in State, so that every statement
about all states holds for every value of them. -/
structure Params where
  /-- `MEM_SIZE`, the number of bytes of Memory (R50). -/
  memSize : Nat
  /-- `COUNTER_REG - 1`: the loop counter is one of R1 to R8 (R160). -/
  counterSlot : Fin 8
  /-- `COUNTER_UNDERFLOW_MODE` (R160). -/
  counterUnderflow : OverflowMode
  /-- `IP_OVERFLOW_MODE` (R101, R150). -/
  ipOverflow : OverflowMode
  /-- `IMM_BITS`, the bits of a signed immediate or displacement of the record (R75). -/
  immBits : Nat
  deriving DecidableEq, Repr

/-- The defaults of R6: 65535 bytes, `COUNTER_REG = 3`, both modes `fault`, `IMM_BITS = 32`. -/
def Params.default : Params :=
  { memSize := 65535, counterSlot := 2, counterUnderflow := .fault, ipOverflow := .fault, immBits := 32 }

/-- The value of `IMM_BITS` at which the packed port carries the record (R78): its value fields have 32 bits
(R80). The parameter itself is `Params.immBits`. -/
def Config.packedImmBits : Nat := 32

/-- FREE VALUE: what the register slot of the second argument holds after the fault numbered by the first
(R174: unspecified; log entry 5). -/
opaque Config.regAfterFault : Nat → Nat → Word

/-- FREE VALUE: what FLAGS holds after the fault numbered by the argument (R174; log entry 5). -/
opaque Config.flagsAfterFault : Nat → Word

/-- FREE VALUE: the bytes of Memory after the fault numbered by the argument, as (address, byte) pairs
(R174; log entry 5). -/
opaque Config.memAfterFault : Nat → List (Nat × Byte)

end Sys2Proof
end

