-- ==== Sys2Proof/Syntax.lean ====
section
/-! DEFINITION. The decoded instruction of 30_encoding.md R71, one constructor per row of
spec/opcode_table.json. -/

namespace Sys2Proof

/-- The half-selector of a byte operand (R23). -/
inductive Half where
  | low
  | high
  deriving DecidableEq, Repr

/-- The kind of an operand, as ILLEGAL_OPERAND records it (R75, R171). -/
inductive OperandKind where
  | none
  | register
  | immediate
  | memory
  deriving DecidableEq, Repr

/-- An operand of the record (R71, R75). Indices and values are the record's own: a natural number and
mathematical integers. -/
inductive Operand where
  | none
  | register (index : Nat) (half : Half)
  | immediate (value : Int)
  | memory (base : Option Nat) (disp : Int)
  deriving DecidableEq, Repr

/-- The Instruction record the core receives (R71). `op` is any operation kind, implemented or not (R72). -/
structure Record where
  op : BitVec 8
  wide : Bool
  len : Nat
  slot0 : Operand
  slot1 : Operand
  deriving DecidableEq, Repr

/-- The twelve implemented operation kinds (R72). -/
inductive OpKind where
  | mov | add | sub | cmp
  | je | jne | jp | jnp | jb | jnb
  | loopz | loopnz
  deriving DecidableEq, Repr

/-- The instructions, one constructor per row of the opcode table: the record of R71 for an implemented
operation kind. The two operand slots hold ANY operand, since a shape that R81 does not admit is an
instruction the core answers with a fault (R82). A jump or loop keeps the wide flag it ignores (R73). -/
inductive Instr where
  | movW (len : Nat) (slot0 slot1 : Operand)
  | movB (len : Nat) (slot0 slot1 : Operand)
  | addW (len : Nat) (slot0 slot1 : Operand)
  | addB (len : Nat) (slot0 slot1 : Operand)
  | subW (len : Nat) (slot0 slot1 : Operand)
  | subB (len : Nat) (slot0 slot1 : Operand)
  | cmpW (len : Nat) (slot0 slot1 : Operand)
  | cmpB (len : Nat) (slot0 slot1 : Operand)
  | je (wide : Bool) (len : Nat) (slot0 slot1 : Operand)
  | jne (wide : Bool) (len : Nat) (slot0 slot1 : Operand)
  | jp (wide : Bool) (len : Nat) (slot0 slot1 : Operand)
  | jnp (wide : Bool) (len : Nat) (slot0 slot1 : Operand)
  | jb (wide : Bool) (len : Nat) (slot0 slot1 : Operand)
  | jnb (wide : Bool) (len : Nat) (slot0 slot1 : Operand)
  | loopz (wide : Bool) (len : Nat) (slot0 slot1 : Operand)
  | loopnz (wide : Bool) (len : Nat) (slot0 slot1 : Operand)
  deriving DecidableEq, Repr

end Sys2Proof
end

