-- ==== Sys2Proof/WellFormed.lean ====
section
/-! DEFINITION. Which records exist at a value of `IMM_BITS` (30_encoding.md R75, R77), and which records and
instructions the packed port of R79 and R80 can carry. -/

namespace Sys2Proof

/-- A signed integer of `bits` bits (R75: `-2^(bits-1) <= v <= 2^(bits-1) - 1`, here doubled). -/
def fitsSigned (bits : Nat) (v : Int) : Bool :=
  decide (-(2 ^ bits : Int) ≤ 2 * v) && decide (2 * v < (2 ^ bits : Int))

/-- An operand of the record at a value of `IMM_BITS`: its immediate or displacement is in range (R75). Whether
an index names a register (R25) is checked when the operand is used, not here. -/
def Operand.inRange (immBits : Nat) : Operand → Bool
  | .none => true
  | .register _ _ => true
  | .immediate value => fitsSigned immBits value
  | .memory _ disp => fitsSigned immBits disp

/-- A record that exists at a value of `IMM_BITS`: an 8-bit byte length (R77) and two operands in range (R75). -/
def Record.wf (immBits : Nat) (r : Record) : Bool :=
  decide (r.len < 256) && r.slot0.inRange immBits && r.slot1.inRange immBits

/-- A register or base index that the 4-bit field of R80 carries. -/
def Operand.indexFits : Operand → Bool
  | .none => true
  | .register index _ => decide (index < 16)
  | .immediate _ => true
  | .memory .none _ => true
  | .memory (.some base) _ => decide (base < 16)

/-- An operand the packed field of R80 carries. -/
def Operand.wf (o : Operand) : Bool := o.indexFits && o.inRange Config.packedImmBits

/-- The checks on the fields every instruction has: an 8-bit byte length (R77) and two operands. -/
def fieldsWf (len : Nat) (slot0 slot1 : Operand) : Bool :=
  decide (len < 256) && slot0.wf && slot1.wf

/-- A record the packed port carries (R78 to R80). -/
def Record.packable (r : Record) : Bool := fieldsWf r.len r.slot0 r.slot1

/-- A well-formed instruction: one the packed port carries. DESIGN CHOICE (log entry 24, safe): exec has a
meaning for the others too. -/
def Instr.wf : Instr → Bool
  | .movW l a b => fieldsWf l a b
  | .movB l a b => fieldsWf l a b
  | .addW l a b => fieldsWf l a b
  | .addB l a b => fieldsWf l a b
  | .subW l a b => fieldsWf l a b
  | .subB l a b => fieldsWf l a b
  | .cmpW l a b => fieldsWf l a b
  | .cmpB l a b => fieldsWf l a b
  | .je _ l a b => fieldsWf l a b
  | .jne _ l a b => fieldsWf l a b
  | .jp _ l a b => fieldsWf l a b
  | .jnp _ l a b => fieldsWf l a b
  | .jb _ l a b => fieldsWf l a b
  | .jnb _ l a b => fieldsWf l a b
  | .loopz _ l a b => fieldsWf l a b
  | .loopnz _ l a b => fieldsWf l a b

end Sys2Proof
end

