-- ==== Sys2Proof/Decode.lean ====
section
/-! DEFINITION. The decoder from the packed instruction word (30_encoding.md R72, R79, R80), total on any
word and rejecting by name, and the encoder back. -/

namespace Sys2Proof

/-- The codes of R72. -/
def OpKind.code : OpKind → BitVec 8
  | .mov => 0x01#8
  | .add => 0x02#8
  | .sub => 0x03#8
  | .cmp => 0x04#8
  | .je => 0x05#8
  | .jne => 0x06#8
  | .jp => 0x07#8
  | .jnp => 0x08#8
  | .jb => 0x09#8
  | .jnb => 0x0A#8
  | .loopz => 0x0B#8
  | .loopnz => 0x0C#8

/-- The operation kind of a code; none for 0x00 and 0x0D to 0xFF (R72). -/
def OpKind.ofCode (code : BitVec 8) : Option OpKind :=
  match code.toNat with
  | 0x01 => some .mov
  | 0x02 => some .add
  | 0x03 => some .sub
  | 0x04 => some .cmp
  | 0x05 => some .je
  | 0x06 => some .jne
  | 0x07 => some .jp
  | 0x08 => some .jnp
  | 0x09 => some .jb
  | 0x0A => some .jnb
  | 0x0B => some .loopz
  | 0x0C => some .loopnz
  | _ => none

/-- The kind of an operand (R75). -/
def Operand.kind : Operand → OperandKind
  | .none => .none
  | .register _ _ => .register
  | .immediate _ => .immediate
  | .memory _ _ => .memory

/-- The operation kind of an instruction. -/
def Instr.op : Instr → OpKind
  | .movW _ _ _ => .mov
  | .movB _ _ _ => .mov
  | .addW _ _ _ => .add
  | .addB _ _ _ => .add
  | .subW _ _ _ => .sub
  | .subB _ _ _ => .sub
  | .cmpW _ _ _ => .cmp
  | .cmpB _ _ _ => .cmp
  | .je _ _ _ _ => .je
  | .jne _ _ _ _ => .jne
  | .jp _ _ _ _ => .jp
  | .jnp _ _ _ _ => .jnp
  | .jb _ _ _ _ => .jb
  | .jnb _ _ _ _ => .jnb
  | .loopz _ _ _ _ => .loopz
  | .loopnz _ _ _ _ => .loopnz

/-- The wide flag of an instruction (R73). -/
def Instr.wide : Instr → Bool
  | .movW _ _ _ => true
  | .movB _ _ _ => false
  | .addW _ _ _ => true
  | .addB _ _ _ => false
  | .subW _ _ _ => true
  | .subB _ _ _ => false
  | .cmpW _ _ _ => true
  | .cmpB _ _ _ => false
  | .je w _ _ _ => w
  | .jne w _ _ _ => w
  | .jp w _ _ _ => w
  | .jnp w _ _ _ => w
  | .jb w _ _ _ => w
  | .jnb w _ _ _ => w
  | .loopz w _ _ _ => w
  | .loopnz w _ _ _ => w

/-- The byte length of an instruction (R77). -/
def Instr.len : Instr → Nat
  | .movW l _ _ => l
  | .movB l _ _ => l
  | .addW l _ _ => l
  | .addB l _ _ => l
  | .subW l _ _ => l
  | .subB l _ _ => l
  | .cmpW l _ _ => l
  | .cmpB l _ _ => l
  | .je _ l _ _ => l
  | .jne _ l _ _ => l
  | .jp _ l _ _ => l
  | .jnp _ l _ _ => l
  | .jb _ l _ _ => l
  | .jnb _ l _ _ => l
  | .loopz _ l _ _ => l
  | .loopnz _ l _ _ => l

/-- Operand slot 0: the destination, or a branch's displacement (R74). -/
def Instr.slot0 : Instr → Operand
  | .movW _ a _ => a
  | .movB _ a _ => a
  | .addW _ a _ => a
  | .addB _ a _ => a
  | .subW _ a _ => a
  | .subB _ a _ => a
  | .cmpW _ a _ => a
  | .cmpB _ a _ => a
  | .je _ _ a _ => a
  | .jne _ _ a _ => a
  | .jp _ _ a _ => a
  | .jnp _ _ a _ => a
  | .jb _ _ a _ => a
  | .jnb _ _ a _ => a
  | .loopz _ _ a _ => a
  | .loopnz _ _ a _ => a

/-- Operand slot 1: the source, or NONE for a branch (R74). -/
def Instr.slot1 : Instr → Operand
  | .movW _ _ b => b
  | .movB _ _ b => b
  | .addW _ _ b => b
  | .addB _ _ b => b
  | .subW _ _ b => b
  | .subB _ _ b => b
  | .cmpW _ _ b => b
  | .cmpB _ _ b => b
  | .je _ _ _ b => b
  | .jne _ _ _ b => b
  | .jp _ _ _ b => b
  | .jnp _ _ _ b => b
  | .jb _ _ _ b => b
  | .jnb _ _ _ b => b
  | .loopz _ _ _ b => b
  | .loopnz _ _ _ b => b

/-- The instruction of an operation kind and the record's other fields (R71). -/
def instrOf (op : OpKind) (wide : Bool) (len : Nat) (slot0 slot1 : Operand) : Instr :=
  match op with
  | .mov => if wide then .movW len slot0 slot1 else .movB len slot0 slot1
  | .add => if wide then .addW len slot0 slot1 else .addB len slot0 slot1
  | .sub => if wide then .subW len slot0 slot1 else .subB len slot0 slot1
  | .cmp => if wide then .cmpW len slot0 slot1 else .cmpB len slot0 slot1
  | .je => .je wide len slot0 slot1
  | .jne => .jne wide len slot0 slot1
  | .jp => .jp wide len slot0 slot1
  | .jnp => .jnp wide len slot0 slot1
  | .jb => .jb wide len slot0 slot1
  | .jnb => .jnb wide len slot0 slot1
  | .loopz => .loopz wide len slot0 slot1
  | .loopnz => .loopnz wide len slot0 slot1

/-- R79, bits [7:0]. -/
def packedOp (w : PackedWord) : BitVec 8 := w.extractLsb' 0 8

/-- R79, bit [8]. -/
def packedWide (w : PackedWord) : Bool := w.getLsbD 8

/-- R79, bits [23:16]. -/
def packedLen (w : PackedWord) : Nat := (w.extractLsb' 16 8).toNat

/-- R79, bits [63:24]. -/
def packedSlot0 (w : PackedWord) : PackedOperand := w.extractLsb' 24 40

/-- R79, bits [103:64]. -/
def packedSlot1 (w : PackedWord) : PackedOperand := w.extractLsb' 64 40

/-- The operand of a packed operand field (R80): kind in [1:0], half in [2], has_base in [3], index in [7:4],
value in [39:8], sign-extended. -/
def decodeOperand (o : PackedOperand) : Operand :=
  match (o.extractLsb' 0 2).toNat with
  | 0 => .none
  | 1 => .register (o.extractLsb' 4 4).toNat (if o.getLsbD 2 then .high else .low)
  | 2 => .immediate (o.extractLsb' 8 32).toInt
  | _ =>
    .memory (if o.getLsbD 3 then some (o.extractLsb' 4 4).toNat else none) (o.extractLsb' 8 32).toInt

/-- Why a word is no instruction of the table. -/
inductive DecodeReject where
  /-- The operation kind code is not one of the twelve (R72); the core's answer is the fault UNIMPLEMENTED. -/
  | unimplemented (op : BitVec 8)
  deriving DecidableEq, Repr

/-- The record a packed word carries (R79, R80). Bits [15:9] are ignored. -/
def decodeRecord (w : PackedWord) : Record :=
  { op := packedOp w
    wide := packedWide w
    len := packedLen w
    slot0 := decodeOperand (packedSlot0 w)
    slot1 := decodeOperand (packedSlot1 w) }

/-- The instruction a record is, if its operation kind is one of the twelve (R72). -/
def Record.instr (r : Record) : Except DecodeReject Instr :=
  match OpKind.ofCode r.op with
  | some op => .ok (instrOf op r.wide r.len r.slot0 r.slot1)
  | none => .error (.unimplemented r.op)

/-- The decoder: the instruction of the record a packed word carries. -/
def decode (w : PackedWord) : Except DecodeReject Instr := (decodeRecord w).instr

/-- The instruction word of a row of the opcode table: its `nbits` low bits as given, every bit above them 0. -/
def tableWord (nbits w : Nat) : PackedWord := BitVec.ofNat 104 (w % 2 ^ nbits)

/-- What the decoder reads from a word numbered as the opcode table numbers it. -/
def decodeTableWord (nbits w : Nat) : Option Instr :=
  match decode (tableWord nbits w) with
  | .ok i => some i
  | .error _ => none

/-- The half bit of R80: 0 = LOW, 1 = HIGH. -/
def encodeHalf : Half → BitVec 1
  | .low => 0#1
  | .high => 1#1

/-- The packed operand field of an operand (R80); every bit R80 calls ignored is written 0. -/
def encodeOperand : Operand → PackedOperand
  | .none => 0#40
  | .register index half => 0#32 ++ BitVec.ofNat 4 index ++ 0#1 ++ encodeHalf half ++ 1#2
  | .immediate value => BitVec.ofInt 32 value ++ 0#4 ++ 0#1 ++ 0#1 ++ 2#2
  | .memory none disp => BitVec.ofInt 32 disp ++ 0#4 ++ 0#1 ++ 0#1 ++ 3#2
  | .memory (some base) disp => BitVec.ofInt 32 disp ++ BitVec.ofNat 4 base ++ 1#1 ++ 0#1 ++ 3#2

/-- The packed word of a record (R79): slot 1, slot 0, len, seven reserved zeros, wide, op. -/
def encodeRecord (r : Record) : PackedWord :=
  encodeOperand r.slot1 ++ encodeOperand r.slot0 ++ BitVec.ofNat 8 r.len ++ 0#7 ++ BitVec.ofBool r.wide ++ r.op

/-- The record of an instruction (R71). -/
def Instr.record (i : Instr) : Record :=
  { op := i.op.code, wide := i.wide, len := i.len, slot0 := i.slot0, slot1 := i.slot1 }

/-- The packed instruction word of an instruction. -/
def encode (i : Instr) : PackedWord := encodeRecord i.record

end Sys2Proof
end

