-- ==== Sys2Proof/Machine/Cells.lean ====
section
/-! DEFINITION. Sparse data by key: lists of (key, value) pairs with strictly rising keys. Memory and the
program map are both held so, which makes equal contents equal lists. -/

namespace Sys2Proof.Machine

/-- The canonical order: keys strictly rising. -/
abbrev Rising {α : Type} (cells : List (Nat × α)) : Prop :=
  cells.Pairwise fun p q => p.1 < q.1

/-- The value at a key, if the key is listed. -/
def cellsGet {α : Type} (k : Nat) : List (Nat × α) → Option α
  | [] => none
  | (j, v) :: rest => if j = k then some v else cellsGet k rest

/-- List a key with a value, in its place. -/
def cellsPut {α : Type} (k : Nat) (v : α) : List (Nat × α) → List (Nat × α)
  | [] => [(k, v)]
  | (j, u) :: rest =>
    if k < j then (k, v) :: (j, u) :: rest
    else if k = j then (k, v) :: rest
    else (j, u) :: cellsPut k v rest

/-- List a key no more. -/
def cellsDrop {α : Type} (k : Nat) : List (Nat × α) → List (Nat × α)
  | [] => []
  | (j, u) :: rest => if j = k then cellsDrop k rest else (j, u) :: cellsDrop k rest

end Sys2Proof.Machine
end

