-- ==== Sys2Proof/Machine/Memory.lean ====
section
/-! DEFINITION. Memory (20_memory.md R50) and the program map (70_reset_and_hazards.md R197) as plain data. -/

namespace Sys2Proof.Machine

/-- Memory: the bytes that differ from the reset byte, by address (R50). -/
abbrev Memory := List Host.Cell

/-- What an unlisted address reads as: the reset byte 0x00 of R37 and R61 (log entry 7). -/
def Memory.blank : Byte := 0x00#8

/-- The byte at an address. -/
def Memory.read (m : Memory) (a : Nat) : Byte := (cellsGet a m).getD Memory.blank

/-- Store one byte, keeping the canonical form. -/
def Memory.write (m : Memory) (a : Nat) (v : Byte) : Memory :=
  if v = Memory.blank then cellsDrop a m else cellsPut a v m

/-- The canonical form of a Memory of `size` bytes: addresses strictly rising and below `size` (R50), no
entry equal to what an unlisted address reads as. -/
abbrev Memory.wf (m : Memory) (size : Nat) : Prop :=
  Rising m ∧ ∀ c ∈ m, c.1 < size ∧ c.2 ≠ Memory.blank

/-- Bytes given in any order, the later of two at one address winning; those outside a Memory of `size`
bytes do not exist and are left out. -/
def Memory.ofCells (size : Nat) (cells : List Host.Cell) : Memory :=
  cells.foldl (fun m c => if c.1 < size then Memory.write m c.1 c.2 else m) []

/-- The program `P`: a partial map from 16-bit instruction-pointer values to Instruction records, held by the
host and separate from Memory (R65, R197; log entry 1). -/
abbrev Program := List (Nat × Record)

/-- `P(pc)` (R197). -/
def Program.fetch (p : Program) (pc : Word) : Option Record := cellsGet pc.toNat p

/-- `P` with one record at a pc. -/
def Program.place (p : Program) (pc : Word) (i : Record) : Program := cellsPut pc.toNat i p

/-- The canonical form of a program at a value of `IMM_BITS`: keys strictly rising, each a 16-bit
instruction-pointer value, and every record one that exists (R75, R77). -/
abbrev Program.wf (p : Program) (immBits : Nat) : Prop :=
  Rising p ∧ ∀ c ∈ p, c.1 < 2 ^ 16 ∧ c.2.wf immBits = true

/-- A program from (pc, record) pairs in any order, the later of two at one pc winning; a record that does not
exist at this `IMM_BITS` is left out. -/
def Program.ofList (immBits : Nat) (l : List (Word × Record)) : Program :=
  l.foldl (fun p c => if c.2.wf immBits then Program.place p c.1 c.2 else p) []

end Sys2Proof.Machine
end

