-- ==== Sys2Proof/Machine/State.lean ====
section
/-! DEFINITION. The machine state of 10_state.md R20 as plain data, the faults of 60_exceptions.md R171, and
the state right after reset (R37). -/

namespace Sys2Proof.Machine

/-- The fault kinds of R171 with the information each records. Every one ends the step and the run (R170).
The kind reported when several apply is the first met in the step's order (R173; log entry 18, unsafe only
for a claim about the KIND). -/
inductive Fault where
  /-- Code 1. Raised by step for an operation kind that is not one of the twelve (R102). Safe: the spec's own fault. -/
  | unimplemented (op : BitVec 8)
  /-- Code 2. Raised by every instruction whose operand shape R81 does not admit (R103). Safe: the spec's own fault. -/
  | illegalOperand (op : OpKind) (slot : Fin 2) (kind : OperandKind)
  /-- Code 3. Raised by MOV, ADD, SUB and CMP for an index outside [1, 13] (R25). Safe: the spec's own fault. -/
  | registerIndex (index : Nat)
  /-- Code 4. Raised by MOV for an effective address outside Memory (R55). Safe: the spec's own fault. -/
  | memoryBounds (address : Int)
  /-- Code 5. Raised by a taken branch with `disp < 0` and `-disp > pc` (R150). Safe: the spec's own fault. -/
  | branchUnderflow (pc : Word) (disp : Int)
  /-- Code 6. Raised by the advance or a taken branch above 0xFFFF in `IP_OVERFLOW_MODE = fault`
  (R101, R150). Safe: an extra stop where the original might go on. -/
  | ipOverflow (sum : Int)
  /-- Code 7. Raised by a loop whose counter is 0 in `COUNTER_UNDERFLOW_MODE = fault` (R160). Safe: an
  extra stop where the original might go on. -/
  | counterUnderflow (counterReg : Nat)
  deriving DecidableEq, Repr

/-- Reasons for which the model gives a step no meaning. -/
inductive Refusal where
  /-- Raised by exec's arm of an instruction without a meaning (there is none). Safe. -/
  | notModelled (mnemonic : String)
  /-- Raised by step where `P(pc)` is undefined: the run has ended normally and there is no instruction to
  execute (R197; log entry 3). Safe: the model stops. -/
  | endOfRun (pc : Word)
  deriving DecidableEq, Repr

/-- The run status of R20. -/
inductive Status where
  | running
  | faulted (f : Fault)
  deriving DecidableEq, Repr

/-- A register slot: index `i` of R25 is slot `i - 1`, so R1 to R8 are slots 0 to 7, S0 to S3 are slots 8 to
11 and the instruction pointer is slot 12 (R22, R26). -/
abbrev Slot := Fin 13

/-- The machine state `(x[1..13], FLAGS, MEM, status)` of R20, with what a step reads of the host's side:
the program (R197) and the parameters (R6). -/
structure State where
  /-- `x[1..13]` (R20). -/
  regs : Vector Word 13
  /-- `FLAGS` (R30). -/
  flags : Word
  /-- `MEM` (R50). -/
  mem : Memory
  /-- `status` (R20). -/
  status : Status
  /-- The program `P` of the run (R197). -/
  program : Program
  /-- The parameters of R6. -/
  params : Params
  /-- The model's own: how many free values have been drawn (log entry 5). -/
  draws : Nat
  deriving DecidableEq, Repr

/-- The state right after reset (R37, R190): every register slot 0, FLAGS 0, every byte of Memory 0x00,
RUNNING. No program is loaded (log entry 1), the parameters are the defaults of R6, and the model's own
counter is 0 (log entry 5). -/
def State.reset : State :=
  { regs := Vector.replicate 13 0#16
    flags := 0#16
    mem := []
    status := .running
    program := []
    params := Params.default
    draws := 0 }

end Sys2Proof.Machine
end

