-- ==== Sys2Proof/Machine/Ops.lean ====
section
/-! DEFINITION. The named operations over registers, Memory, the instruction pointer and the program; and
what a fault does (there is no other exception: 60_exceptions.md R175 to R177). -/

namespace Sys2Proof.Machine

/-! ### Register File (10_state.md) -/

/-- The instruction pointer is index 13 (R26, R29). -/
def ipSlot : Slot := 12

/-- The register index of a slot (R22, R26). -/
def Slot.index (r : Slot) : Nat := r.val + 1

/-- `x[i]` (R8). -/
def State.reg (s : State) (r : Slot) : Word := s.regs[r.val]

/-- `x[i] <- v` (R8). -/
def State.setReg (s : State) (r : Slot) (v : Word) : State :=
  { s with regs := s.regs.set r.val v r.isLt }

/-- `pc`, the same storage as `x[13]` (R8). -/
def State.pc (s : State) : Word := s.reg ipSlot

/-- `pc <- v` (R8). -/
def State.setPc (s : State) (v : Word) : State := s.setReg ipSlot v

/-- `v[7:0]`. -/
def loByte (v : Word) : Byte := v.extractLsb' 0 8

/-- `v[15:8]`. -/
def hiByte (v : Word) : Byte := v.extractLsb' 8 8

/-- The concatenation of a high and a low byte (R7). -/
def joinBytes (hi lo : Byte) : Word := hi ++ lo

/-- The byte a half-selector names (R23). -/
def halfOf (h : Half) (v : Word) : Byte :=
  match h with
  | .low => loByte v
  | .high => hiByte v

/-- A word with the named half replaced and the other half kept (R23, R24). -/
def withHalf (h : Half) (b : Byte) (v : Word) : Word :=
  match h with
  | .low => joinBytes (hiByte v) b
  | .high => joinBytes b (loByte v)

/-- `xb(i, sel)` (R8, R23). -/
def State.half (s : State) (r : Slot) (h : Half) : Byte := halfOf h (s.reg r)

/-- `xb(i, sel) <- v` (R8, R23). -/
def State.setHalf (s : State) (r : Slot) (h : Half) (b : Byte) : State :=
  s.setReg r (withHalf h b (s.reg r))

/-- FLAGS replaced whole. -/
def State.setFlags (s : State) (f : Word) : State := { s with flags := f }

/-! ### Memory (20_memory.md). The addresses come from the Address Resolver, which has checked them. -/

/-- `MemRead(a, 1)` (R53). -/
def State.memByte (s : State) (a : Nat) : Byte := Memory.read s.mem a

/-- `MemRead(a, 2)`: the low byte at `a`, the high byte at `a + 1` (R53). -/
def State.memWord (s : State) (a : Nat) : Word := joinBytes (s.memByte (a + 1)) (s.memByte a)

/-- `MemWrite(a, 1, v)` (R53, R57). -/
def State.setMemByte (s : State) (a : Nat) (b : Byte) : State :=
  { s with mem := Memory.write s.mem a b }

/-- `MemWrite(a, 2, v)` (R53). -/
def State.setMemWord (s : State) (a : Nat) (v : Word) : State :=
  (s.setMemByte a (loByte v)).setMemByte (a + 1) (hiByte v)

/-! ### The instruction pointer (40_dispatch.md R101, 43_control_flow.md R150) -/

/-- Set `pc` to a non-negative integer, with what `IP_OVERFLOW_MODE` says above 0xFFFF (R101, R150). -/
def landPc (t : Int) (s : State) : Except Fault State :=
  if t > 0xFFFF then
    match s.params.ipOverflow with
    | .fault => .error (.ipOverflow t)
    | .wrap => .ok (s.setPc (BitVec.ofInt 16 t))
  else .ok (s.setPc (BitVec.ofInt 16 t))

/-- The first action of every step: `pc` advances by the byte length (R101). -/
def advance (len : Nat) (s : State) : Except Fault State := landPc (s.pc.toNat + len) s

/-! ### Faults (60_exceptions.md) -/

/-- How a step ends: with the next state, or with the fault that aborted it (R100, R111). -/
def outcome (r : Except Fault State) : Host.Outcome State Fault Refusal :=
  match r with
  | .ok s => .next s
  | .error f => .fault f

/-- The state a fault leaves: `status` records it, and the contents of registers, FLAGS and Memory are
unspecified, so they are free values (R170, R174; log entry 5). Nothing is saved and control goes nowhere
(R175), so there is no return either (R176). -/
def State.takeFault (s : State) (f : Fault) : State :=
  { s with
    regs := Vector.ofFn fun (r : Slot) => Config.regAfterFault s.draws r.val
    flags := Config.flagsAfterFault s.draws
    mem := Memory.ofCells s.params.memSize (Config.memAfterFault s.draws)
    status := .faulted f
    draws := s.draws + 1 }

/-- The code of a fault (R171). -/
def Fault.code : Fault → Nat
  | .unimplemented _ => 1
  | .illegalOperand _ _ _ => 2
  | .registerIndex _ => 3
  | .memoryBounds _ => 4
  | .branchUnderflow _ _ => 5
  | .ipOverflow _ => 6
  | .counterUnderflow _ => 7

/-- What `execute` returns to the host: the value of `pc` at the end of a step that does not fault (R110). -/
def returned (r : Host.Outcome State Fault Refusal) : Option Word :=
  match r with
  | .next s => some s.pc
  | .fault _ => none
  | .refused _ => none

/-! ### The host's side (70_reset_and_hazards.md R193 to R197) -/

/-- `P(pc)` at the current `pc` (R197). -/
def State.fetch (s : State) : Option Record := Program.fetch s.program s.pc

/-- The program with one record at the current `pc`. -/
def State.placeRecord (s : State) (i : Record) : State :=
  { s with program := Program.place s.program s.pc i }

/-- A launch state the host sets up before the first step (R196): register slots, FLAGS, bytes of Memory and
a program, from plain lists (log entry 30). -/
def State.launch (params : Params) (regs : Vector Word 13) (flags : Word) (bytes : List Host.Cell)
    (program : List (Word × Record)) : State :=
  { State.reset with
    regs := regs
    flags := flags
    mem := Memory.ofCells params.memSize bytes
    program := Program.ofList params.immBits program
    params := params }

end Sys2Proof.Machine
end

