-- ==== Sys2Proof/Machine/Operands.lean ====
section
/-! DEFINITION. Operands: the shape check (30_encoding.md R81, 40_dispatch.md R103), the Address Resolver
(20_memory.md R54 to R56), operand resolution (R104) and the operand access functions (R106, R107). -/

namespace Sys2Proof.Machine

/-- The operand kinds slot 0 admits (R81). -/
def admitsSlot0 (op : OpKind) (kind : OperandKind) : Bool :=
  match op, kind with
  | .mov, .register => true
  | .mov, .memory => true
  | .add, .register => true
  | .sub, .register => true
  | .cmp, .register => true
  | .je, .immediate => true
  | .jne, .immediate => true
  | .jp, .immediate => true
  | .jnp, .immediate => true
  | .jb, .immediate => true
  | .jnb, .immediate => true
  | .loopz, .immediate => true
  | .loopnz, .immediate => true
  | _, _ => false

/-- The operand kinds slot 1 admits (R81). -/
def admitsSlot1 (op : OpKind) (kind : OperandKind) : Bool :=
  match op, kind with
  | .mov, .register => true
  | .mov, .immediate => true
  | .mov, .memory => true
  | .add, .register => true
  | .add, .immediate => true
  | .sub, .register => true
  | .sub, .immediate => true
  | .cmp, .register => true
  | .cmp, .immediate => true
  | .je, .none => true
  | .jne, .none => true
  | .jp, .none => true
  | .jnp, .none => true
  | .jb, .none => true
  | .jnb, .none => true
  | .loopz, .none => true
  | .loopnz, .none => true
  | _, _ => false

/-- The shape check: the first slot whose kind is not admitted is the one reported (R103). -/
def checkShape (op : OpKind) (slot0 slot1 : Operand) : Except Fault Unit :=
  if admitsSlot0 op slot0.kind then
    if admitsSlot1 op slot1.kind then .ok () else .error (.illegalOperand op 1 slot1.kind)
  else .error (.illegalOperand op 0 slot0.kind)

/-- The index check: `1 <= i <= 13` (R25). -/
def checkIndex (i : Nat) : Except Fault Slot :=
  if h : 1 ≤ i ∧ i ≤ 13 then .ok ⟨i - 1, by omega⟩ else .error (.registerIndex i)

/-- The bounds check of the Address Resolver: `0 <= a` and `a + 1 <= MEM_SIZE - 1` (R55). -/
def checkBounds (memSize : Nat) (a : Int) : Except Fault Nat :=
  if 0 ≤ a ∧ a + 1 ≤ (memSize : Int) - 1 then .ok a.toNat else .error (.memoryBounds a)

/-- The Address Resolver: the full word of the base register, or 0, plus the displacement, in the integers
(R54, R56). -/
def ea (base : Option Nat) (disp : Int) (s : State) : Except Fault Nat :=
  match base with
  | none => checkBounds s.params.memSize disp
  | some i =>
    match checkIndex i with
    | .ok r => checkBounds s.params.memSize ((s.reg r).toNat + disp)
    | .error f => .error f

/-- A resolved register or Memory operand (R104). -/
inductive Place where
  | reg (r : Slot) (half : Half)
  | addr (a : Nat)
  deriving DecidableEq, Repr

/-- A resolved source operand (R104). -/
inductive Source where
  | place (p : Place)
  | imm (value : Int)
  deriving DecidableEq, Repr

/-- Resolve a register or Memory operand (R104). The shape check has refused every other kind; were one
given, the answer is the same fault (log entry 29). -/
def resolvePlace (op : OpKind) (slot : Fin 2) (o : Operand) (s : State) : Except Fault Place :=
  match o with
  | .register i h =>
    match checkIndex i with
    | .ok r => .ok (.reg r h)
    | .error f => .error f
  | .memory base disp =>
    match ea base disp s with
    | .ok a => .ok (.addr a)
    | .error f => .error f
  | .immediate _ => .error (.illegalOperand op slot .immediate)
  | .none => .error (.illegalOperand op slot .none)

/-- Resolve a source operand (R104). -/
def resolveSource (op : OpKind) (slot : Fin 2) (o : Operand) (s : State) : Except Fault Source :=
  match o with
  | .immediate v => .ok (.imm v)
  | o =>
    match resolvePlace op slot o s with
    | .ok p => .ok (.place p)
    | .error f => .error f

/-- The displacement of a branch: the IMMEDIATE of slot 0, unreduced (R74, R76). -/
def displacement (op : OpKind) (o : Operand) : Except Fault Int :=
  match o with
  | .immediate v => .ok v
  | o => .error (.illegalOperand op 0 o.kind)

/-- `read_16` of a register or Memory operand; the half is ignored (R106). -/
def readPlaceW (p : Place) (s : State) : Word :=
  match p with
  | .reg r _ => s.reg r
  | .addr a => s.memWord a

/-- `read_8` of a register or Memory operand (R106). -/
def readPlaceB (p : Place) (s : State) : Byte :=
  match p with
  | .reg r h => s.half r h
  | .addr a => s.memByte a

/-- `read_16` of a source: an immediate is taken mod 2^16 (R76, R106). -/
def readW (src : Source) (s : State) : Word :=
  match src with
  | .place p => readPlaceW p s
  | .imm v => BitVec.ofInt 16 v

/-- `read_8` of a source: an immediate is taken mod 2^8 (R76, R106). -/
def readB (src : Source) (s : State) : Byte :=
  match src with
  | .place p => readPlaceB p s
  | .imm v => BitVec.ofInt 8 v

/-- `write_16` (R107). -/
def writeW (p : Place) (v : Word) (s : State) : State :=
  match p with
  | .reg r _ => s.setReg r v
  | .addr a => s.setMemWord a v

/-- `write_8` (R107). -/
def writeB (p : Place) (v : Byte) (s : State) : State :=
  match p with
  | .reg r h => s.setHalf r h v
  | .addr a => s.setMemByte a v

/-- A two-operand instruction as far as its operands are resolved (R113): the advance, the shape check, then
slot 0 before slot 1. -/
def prepareTwo (op : OpKind) (len : Nat) (slot0 slot1 : Operand) (s : State) :
    Except Fault (State × Place × Source) := do
  let s ← advance len s
  checkShape op slot0 slot1
  let d ← resolvePlace op 0 slot0 s
  let src ← resolveSource op 1 slot1 s
  .ok (s, d, src)

/-- A branch as far as its displacement is known (R113): the advance, then the shape check. -/
def prepareBranch (op : OpKind) (len : Nat) (slot0 slot1 : Operand) (s : State) :
    Except Fault (State × Int) := do
  let s ← advance len s
  checkShape op slot0 slot1
  let disp ← displacement op slot0
  .ok (s, disp)

end Sys2Proof.Machine
end

