-- ==== Sys2Proof/Machine/Flags.lean ====
section
/-! DEFINITION. The flag positions (10_state.md R30) and the ALU with its flag derivation (42_alu.md R130 to
R138). -/

namespace Sys2Proof.Machine

/-- The mask of the parity flag, bit 2 (R30). -/
def maskPF : Word := 0x0004#16

/-- The mask of the zero flag, bit 6 (R30). -/
def maskZF : Word := 0x0040#16

/-- The mask of the sign flag, bit 7 (R30). -/
def maskSF : Word := 0x0080#16

/-- The mask of the overflow flag, bit 11 (R30). -/
def maskOF : Word := 0x0800#16

/-- The twelve bits without a meaning, which nothing writes (R30, R137). -/
def maskUnnamed : Word := 0xF73B#16

/-- Whether the flag bit a mask names is set (R151). -/
def flagSet (mask flags : Word) : Bool := (flags &&& mask) != 0#16

/-- The number of 1 bits of a byte (R7). -/
def popcount (b : Byte) : Nat := (List.range 8).countP fun i => b.getLsbD i

/-- The result of an ALU operation of `w` bits with its four flags (R138). -/
structure AluResult (w : Nat) where
  r : BitVec w
  zf : Bool
  sf : Bool
  pf : Bool
  of : Bool
  deriving DecidableEq, Repr

/-- The result and flags of a raw integer result (R132 to R136): truncation, then zero, sign, even parity
of the low byte, and the raw result falling outside `w` bits. -/
def aluOf (w : Nat) (raw : Int) : AluResult w :=
  let r := BitVec.ofInt w raw
  { r := r
    zf := r == 0#w
    sf := r.getLsbD (w - 1)
    pf := popcount (r.setWidth 8) % 2 == 0
    of := decide (raw < 0) || decide (raw > 2 ^ w - 1) }

/-- ADD: the raw result is the integer sum (R130). -/
def aluAdd {w : Nat} (a b : BitVec w) : AluResult w := aluOf w ((a.toNat : Int) + (b.toNat : Int))

/-- SUB and CMP: the raw result is the integer difference (R130). -/
def aluSub {w : Nat} (a b : BitVec w) : AluResult w := aluOf w ((a.toNat : Int) - (b.toNat : Int))

/-- A flag's mask when its condition holds, nothing when it does not. -/
def flagBit (mask : Word) (b : Bool) : Word := if b then mask else 0#16

/-- The flag write: the four flags as computed, the twelve other bits kept (R137). -/
def mergeFlags {w : Nat} (flags : Word) (x : AluResult w) : Word :=
  (flags &&& maskUnnamed) ||| flagBit maskZF x.zf ||| flagBit maskSF x.sf ||| flagBit maskPF x.pf
    ||| flagBit maskOF x.of

/-- `set_flags` on the state (R137). -/
def State.writeFlags {w : Nat} (s : State) (x : AluResult w) : State := s.setFlags (mergeFlags s.flags x)

end Sys2Proof.Machine
end

