-- ==== Sys2Proof/Machine/Alu.lean ====
section
/-! DEFINITION. ADD, SUB and CMP (42_alu.md R139 to R142). -/

namespace Sys2Proof.Machine

/-- `exec_alu` at W = 16: both operands read, then FLAGS, then the write-back if there is one (R138 to
R142). -/
def arithW (op : OpKind) (alu : Word → Word → AluResult 16) (writeBack : Bool) (len : Nat)
    (slot0 slot1 : Operand) (s : State) : Except Fault State := do
  let (s, d, src) ← prepareTwo op len slot0 slot1 s
  let x := alu (readPlaceW d s) (readW src s)
  let s := s.writeFlags x
  .ok (if writeBack then writeW d x.r s else s)

/-- `exec_alu` at W = 8 (R138 to R142). -/
def arithB (op : OpKind) (alu : Byte → Byte → AluResult 8) (writeBack : Bool) (len : Nat)
    (slot0 slot1 : Operand) (s : State) : Except Fault State := do
  let (s, d, src) ← prepareTwo op len slot0 slot1 s
  let x := alu (readPlaceB d s) (readB src s)
  let s := s.writeFlags x
  .ok (if writeBack then writeB d x.r s else s)

/-- ADD.W (R140). -/
def execAddW (len : Nat) (slot0 slot1 : Operand) (s : State) : Host.Outcome State Fault Refusal :=
  outcome (arithW .add aluAdd true len slot0 slot1 s)

/-- ADD.B (R140). -/
def execAddB (len : Nat) (slot0 slot1 : Operand) (s : State) : Host.Outcome State Fault Refusal :=
  outcome (arithB .add aluAdd true len slot0 slot1 s)

/-- SUB.W (R141). -/
def execSubW (len : Nat) (slot0 slot1 : Operand) (s : State) : Host.Outcome State Fault Refusal :=
  outcome (arithW .sub aluSub true len slot0 slot1 s)

/-- SUB.B (R141). -/
def execSubB (len : Nat) (slot0 slot1 : Operand) (s : State) : Host.Outcome State Fault Refusal :=
  outcome (arithB .sub aluSub true len slot0 slot1 s)

/-- CMP.W: SUB without the write-back (R142). -/
def execCmpW (len : Nat) (slot0 slot1 : Operand) (s : State) : Host.Outcome State Fault Refusal :=
  outcome (arithW .cmp aluSub false len slot0 slot1 s)

/-- CMP.B: SUB without the write-back (R142). -/
def execCmpB (len : Nat) (slot0 slot1 : Operand) (s : State) : Host.Outcome State Fault Refusal :=
  outcome (arithB .cmp aluSub false len slot0 slot1 s)

end Sys2Proof.Machine
end

