-- ==== Sys2Proof/Machine/Branch.lean ====
section
/-! DEFINITION. The Control-Flow Unit: the displacement rule, the six conditional jumps and the two loops
(43_control_flow.md R150 to R163). -/

namespace Sys2Proof.Machine

/-- A taken branch adds the signed displacement to the post-advance `pc` (R150). -/
def applyDisp (disp : Int) (s : State) : Except Fault State :=
  if disp < 0 ∧ -disp > (s.pc.toNat : Int) then .error (.branchUnderflow s.pc disp)
  else landPc ((s.pc.toNat : Int) + disp) s

/-- The generic conditional jump: taken when the bit the mask names has the required polarity (R151). -/
def condJump (op : OpKind) (mask : Word) (polarity : Bool) (len : Nat) (slot0 slot1 : Operand) (s : State) :
    Except Fault State := do
  let (s, disp) ← prepareBranch op len slot0 slot1 s
  if flagSet mask s.flags = polarity then applyDisp disp s else .ok s

/-- The slot of the loop counter, one of R1 to R8 (R160). -/
def counterSlot (p : Params) : Slot := ⟨p.counterSlot.val, by omega⟩

/-- The loop counter `x[COUNTER_REG]` (R160). -/
def State.counter (s : State) : Word := s.reg (counterSlot s.params)

/-- The loop counter written. -/
def State.setCounter (s : State) (v : Word) : State := s.setReg (counterSlot s.params) v

/-- The counter decremented, with what `COUNTER_UNDERFLOW_MODE` says of 0 (R160). -/
def decrementCounter (s : State) : Except Fault State :=
  if s.counter = 0#16 then
    match s.params.counterUnderflow with
    | .fault => .error (.counterUnderflow (Slot.index (counterSlot s.params)))
    | .wrap => .ok (s.setCounter 0xFFFF#16)
  else .ok (s.setCounter (s.counter - 1#16))

/-- The generic loop: decrement first, then branch if the counter is nonzero and ZF has the required
polarity (R161). -/
def loopStep (op : OpKind) (zpol : Bool) (len : Nat) (slot0 slot1 : Operand) (s : State) :
    Except Fault State := do
  let (s, disp) ← prepareBranch op len slot0 slot1 s
  let s ← decrementCounter s
  if s.counter ≠ 0#16 ∧ flagSet maskZF s.flags = zpol then applyDisp disp s else .ok s

/-- JE: taken iff ZF = 1 (R152). -/
def execJe (_wide : Bool) (len : Nat) (slot0 slot1 : Operand) (s : State) : Host.Outcome State Fault Refusal :=
  outcome (condJump .je maskZF true len slot0 slot1 s)

/-- JNE: taken iff ZF = 0 (R153). -/
def execJne (_wide : Bool) (len : Nat) (slot0 slot1 : Operand) (s : State) : Host.Outcome State Fault Refusal :=
  outcome (condJump .jne maskZF false len slot0 slot1 s)

/-- JP: taken iff PF = 1 (R154). -/
def execJp (_wide : Bool) (len : Nat) (slot0 slot1 : Operand) (s : State) : Host.Outcome State Fault Refusal :=
  outcome (condJump .jp maskPF true len slot0 slot1 s)

/-- JNP: taken iff PF = 0 (R155). -/
def execJnp (_wide : Bool) (len : Nat) (slot0 slot1 : Operand) (s : State) : Host.Outcome State Fault Refusal :=
  outcome (condJump .jnp maskPF false len slot0 slot1 s)

/-- JB: taken iff OF = 1 (R156). -/
def execJb (_wide : Bool) (len : Nat) (slot0 slot1 : Operand) (s : State) : Host.Outcome State Fault Refusal :=
  outcome (condJump .jb maskOF true len slot0 slot1 s)

/-- JNB: taken iff OF = 0 (R157). -/
def execJnb (_wide : Bool) (len : Nat) (slot0 slot1 : Operand) (s : State) : Host.Outcome State Fault Refusal :=
  outcome (condJump .jnb maskOF false len slot0 slot1 s)

/-- LOOPZ: decrement, then branch iff the counter is nonzero and ZF = 1 (R162). -/
def execLoopz (_wide : Bool) (len : Nat) (slot0 slot1 : Operand) (s : State) :
    Host.Outcome State Fault Refusal :=
  outcome (loopStep .loopz true len slot0 slot1 s)

/-- LOOPNZ: decrement, then branch iff the counter is nonzero and ZF = 0 (R163). -/
def execLoopnz (_wide : Bool) (len : Nat) (slot0 slot1 : Operand) (s : State) :
    Host.Outcome State Fault Refusal :=
  outcome (loopStep .loopnz false len slot0 slot1 s)

end Sys2Proof.Machine
end

