-- ==== Sys2Proof/Machine/Mov.lean ====
section
/-! DEFINITION. MOV (41_move.md R120 to R122). -/

namespace Sys2Proof.Machine

/-- The word move, from the advance to the write (R113, R120). -/
def moveW (len : Nat) (slot0 slot1 : Operand) (s : State) : Except Fault State := do
  let (s, d, src) ← prepareTwo .mov len slot0 slot1 s
  .ok (writeW d (readW src s) s)

/-- The byte move, from the advance to the write (R113, R120). -/
def moveB (len : Nat) (slot0 slot1 : Operand) (s : State) : Except Fault State := do
  let (s, d, src) ← prepareTwo .mov len slot0 slot1 s
  .ok (writeB d (readB src s) s)

/-- MOV.W (R120). -/
def execMovW (len : Nat) (slot0 slot1 : Operand) (s : State) : Host.Outcome State Fault Refusal :=
  outcome (moveW len slot0 slot1 s)

/-- MOV.B (R120, R121). -/
def execMovB (len : Nat) (slot0 slot1 : Operand) (s : State) : Host.Outcome State Fault Refusal :=
  outcome (moveB len slot0 slot1 s)

end Sys2Proof.Machine
end

