-- ==== Sys2Proof/Machine/Dispatch.lean ====
section
/-! DEFINITION. The Execution Dispatcher (40_dispatch.md R102): one meaning per instruction. -/

namespace Sys2Proof.Machine

def exec (i : Instr) (s : State) : Host.Outcome State Fault Refusal :=
  match i with
  | .movW len slot0 slot1 => Sys2Proof.Machine.execMovW len slot0 slot1 s
  | .movB len slot0 slot1 => Sys2Proof.Machine.execMovB len slot0 slot1 s
  | .addW len slot0 slot1 => Sys2Proof.Machine.execAddW len slot0 slot1 s
  | .addB len slot0 slot1 => Sys2Proof.Machine.execAddB len slot0 slot1 s
  | .subW len slot0 slot1 => Sys2Proof.Machine.execSubW len slot0 slot1 s
  | .subB len slot0 slot1 => Sys2Proof.Machine.execSubB len slot0 slot1 s
  | .cmpW len slot0 slot1 => Sys2Proof.Machine.execCmpW len slot0 slot1 s
  | .cmpB len slot0 slot1 => Sys2Proof.Machine.execCmpB len slot0 slot1 s
  | .je wide len slot0 slot1 => Sys2Proof.Machine.execJe wide len slot0 slot1 s
  | .jne wide len slot0 slot1 => Sys2Proof.Machine.execJne wide len slot0 slot1 s
  | .jp wide len slot0 slot1 => Sys2Proof.Machine.execJp wide len slot0 slot1 s
  | .jnp wide len slot0 slot1 => Sys2Proof.Machine.execJnp wide len slot0 slot1 s
  | .jb wide len slot0 slot1 => Sys2Proof.Machine.execJb wide len slot0 slot1 s
  | .jnb wide len slot0 slot1 => Sys2Proof.Machine.execJnb wide len slot0 slot1 s
  | .loopz wide len slot0 slot1 => Sys2Proof.Machine.execLoopz wide len slot0 slot1 s
  | .loopnz wide len slot0 slot1 => Sys2Proof.Machine.execLoopnz wide len slot0 slot1 s

end Sys2Proof.Machine
end

