-- ==== Sys2Proof/Machine/Unimplemented.lean ====
section
/-! DEFINITION. What the core does with an Instruction record: the dispatched instruction, or the answer to an
operation kind that is not one of the twelve (40_dispatch.md R102, R113). -/

namespace Sys2Proof.Machine

/-- An operation kind the core does not implement: `pc` is advanced first, so a fault of the advance comes
before UNIMPLEMENTED (R101, R102, R173). -/
def execUnimplemented (op : BitVec 8) (len : Nat) (s : State) : Host.Outcome State Fault Refusal :=
  match advance len s with
  | .ok _ => .fault (.unimplemented op)
  | .error f => .fault f

/-- `execute(state, I)` for an Instruction record (R100, R113). -/
def execRecord (r : Record) (s : State) : Host.Outcome State Fault Refusal :=
  match r.instr with
  | .ok i => exec i s
  | .error (.unimplemented op) => execUnimplemented op r.len s

end Sys2Proof.Machine
end

