-- ==== Sys2Proof/Machine/Step.lean ====
section
/-! DEFINITION. One step of a run (70_reset_and_hazards.md R197): the program is looked up at `pc` and the
instruction found there is executed. -/

namespace Sys2Proof.Machine

/-- One step of the run (R197). A faulted run has ended in its fault and has no further step (R174; log entry
4); where `P(pc)` is undefined the run has ended normally (log entry 3); otherwise the core executes
`P(pc)`. -/
def step (s : State) : Host.Outcome State Fault Refusal :=
  match s.status with
  | .faulted f => .fault f
  | .running =>
    match s.fetch with
    | none => .refused (.endOfRun s.pc)
    | some r => execRecord r s

/-- The state with the record of one packed instruction word where step fetches next: at `pc` in the host's
program (R78; log entries 1 and 28). -/
def State.withFetchWord (s : State) (nbits w : Nat) : State := s.placeRecord (decodeRecord (tableWord nbits w))

end Sys2Proof.Machine
end

