-- ==== Sys2Proof/Safety.lean ====
section
/-! DEFINITION. What the claims speak of: the invariant of a state, a run as its host sees it, and the words in
which results and frames are stated. -/

namespace Sys2Proof

/-- The half that is not the named one. -/
def Half.other : Half → Half
  | .low => .high
  | .high => .low

/-- Whether an operand names a register index, as a register or as a base. -/
def Operand.names (o : Operand) (i : Nat) : Prop :=
  match o with
  | .none => False
  | .register j _ => j = i
  | .immediate _ => False
  | .memory .none _ => False
  | .memory (.some j) _ => j = i

/-- ADD, SUB or CMP: the kinds that write FLAGS (R31). -/
def OpKind.isAlu : OpKind → Bool
  | .add => true
  | .sub => true
  | .cmp => true
  | _ => false

/-- A conditional jump or a loop. -/
def OpKind.isBranch : OpKind → Bool
  | .mov => false
  | .add => false
  | .sub => false
  | .cmp => false
  | _ => true

/-- A loop. -/
def OpKind.isLoop : OpKind → Bool
  | .loopz => true
  | .loopnz => true
  | _ => false

end Sys2Proof

namespace Sys2Proof.Machine

/-- Memory and the program are in canonical form: Memory lists no address outside its `MEM_SIZE` bytes (R50),
the program no key that is not a 16-bit pc (R197) and no record that does not exist at `IMM_BITS` (R75, R77). -/
def State.Inv (s : State) : Prop :=
  Memory.wf s.mem s.params.memSize ∧ Program.wf s.program s.params.immBits

/-! ### A run, as its host sees it -/

/-- One step of a run as the host sees the state after it: a fault is recorded in `status` (R170), and a run
that has ended stays as it is (R174, R197). -/
def hostStep (s : State) : State :=
  match s.status with
  | .faulted _ => s
  | .running =>
    match step s with
    | .next t => t
    | .fault f => s.takeFault f
    | .refused _ => s

/-- A run under fuel (R197). -/
def hostRun : Nat → State → State
  | 0, s => s
  | n + 1, s => hostRun n (hostStep s)

/-! ### The advance -/

/-- `pc` plus the byte length, as a 16-bit value (R101). -/
def State.nextPc (len : Nat) (s : State) : Word := BitVec.ofNat 16 (s.pc.toNat + len)

/-- The advance raises no fault: the sum fits 16 bits, or `IP_OVERFLOW_MODE = wrap` (R101). -/
abbrev State.CanAdvance (len : Nat) (s : State) : Prop :=
  s.pc.toNat + len ≤ 0xFFFF ∨ s.params.ipOverflow = .wrap

/-- The state after the advance (R101). -/
def State.advanced (len : Nat) (s : State) : State := s.setPc (s.nextPc len)

/-- `x[i]` as an instruction reads it: index 13 is the post-advance `pc` (R109). -/
def State.regAfter (len : Nat) (s : State) (r : Slot) : Word := if r = ipSlot then s.nextPc len else s.reg r

/-! ### Operands -/

/-- A register operand whose index is in [1, 13] (R25). -/
def regOp (r : Slot) (h : Half) : Operand := .register (Slot.index r) h

/-- A Memory operand without a base or with a base index in [1, 13] (R25, R56). -/
def memOp (base : Option Slot) (disp : Int) : Operand := .memory (base.map Slot.index) disp

/-- Base plus displacement, as an integer (R54). -/
def State.addressOf (len : Nat) (s : State) (base : Option Slot) (disp : Int) : Int :=
  match base with
  | none => disp
  | some r => (s.regAfter len r).toNat + disp

/-- The addresses the Address Resolver admits (R55). -/
abbrev State.InMemory (s : State) (a : Int) : Prop := 0 ≤ a ∧ a + 1 ≤ (s.params.memSize : Int) - 1

/-- A source that is a register or an immediate: every source ADD, SUB and CMP admit (R81). -/
inductive RegOrImm where
  | reg (r : Slot) (h : Half)
  | imm (v : Int)
  deriving DecidableEq, Repr

/-- The operand of such a source. -/
def RegOrImm.operand : RegOrImm → Operand
  | .reg r h => regOp r h
  | .imm v => .immediate v

/-- Its 16-bit value: the full slot, or the immediate mod 2^16 (R76, R106). -/
def RegOrImm.word (len : Nat) (s : State) : RegOrImm → Word
  | .reg r _ => s.regAfter len r
  | .imm v => BitVec.ofInt 16 v

/-- Its 8-bit value: the named half, or the immediate mod 2^8 (R76, R106). -/
def RegOrImm.byte (len : Nat) (s : State) : RegOrImm → Byte
  | .reg r h => halfOf h (s.regAfter len r)
  | .imm v => BitVec.ofInt 8 v

/-- The kinds slot 0 and slot 1 admit, row by row as R81's table lists them. -/
def shapeTable (op : OpKind) : List OperandKind × List OperandKind :=
  match op with
  | .mov => ([.register, .memory], [.register, .immediate, .memory])
  | .add => ([.register], [.register, .immediate])
  | .sub => ([.register], [.register, .immediate])
  | .cmp => ([.register], [.register, .immediate])
  | .je => ([.immediate], [.none])
  | .jne => ([.immediate], [.none])
  | .jp => ([.immediate], [.none])
  | .jnp => ([.immediate], [.none])
  | .jb => ([.immediate], [.none])
  | .jnb => ([.immediate], [.none])
  | .loopz => ([.immediate], [.none])
  | .loopnz => ([.immediate], [.none])

/-! ### Instruction families -/

/-- MOV. -/
def movForms : List (Nat → Operand → Operand → Instr) := [.movW, .movB]

/-- ADD, SUB and CMP. -/
def aluForms : List (Nat → Operand → Operand → Instr) :=
  [.addW, .addB, .subW, .subB, .cmpW, .cmpB]

/-- The conditional jumps. -/
def jumpForms : List (Bool → Nat → Operand → Operand → Instr) := [.je, .jne, .jp, .jnp, .jb, .jnb]

/-- The loops. -/
def loopForms : List (Bool → Nat → Operand → Operand → Instr) := [.loopz, .loopnz]

/-! ### Flags -/

/-- PF, bit 2 (R30). -/
def State.pf (s : State) : Bool := s.flags.getLsbD 2

/-- ZF, bit 6 (R30). -/
def State.zf (s : State) : Bool := s.flags.getLsbD 6

/-- SF, bit 7 (R30). -/
def State.sf (s : State) : Bool := s.flags.getLsbD 7

/-- OF, bit 11 (R30). -/
def State.of (s : State) : Bool := s.flags.getLsbD 11

/-- The bits of FLAGS without a meaning (R30). -/
abbrev unnamedBit (n : Nat) : Prop := n ≠ 2 ∧ n ≠ 6 ∧ n ≠ 7 ∧ n ≠ 11

/-- An even number of 1 bits, said as the exclusive or of the eight bits (R135). -/
def evenOnes (b : Byte) : Bool :=
  !(b.getLsbD 0 ^^ b.getLsbD 1 ^^ b.getLsbD 2 ^^ b.getLsbD 3 ^^ b.getLsbD 4 ^^ b.getLsbD 5 ^^ b.getLsbD 6
    ^^ b.getLsbD 7)

/-! ### Faults -/

/-- The faults an instruction of a kind may raise (R171, column "raised by"). -/
def mayRaise (op : OpKind) : Fault → Prop
  | .unimplemented _ => False
  | .illegalOperand o _ _ => o = op
  | .registerIndex _ => op.isBranch = false
  | .memoryBounds _ => op = .mov
  | .branchUnderflow _ _ => op.isBranch = true
  | .ipOverflow _ => True
  | .counterUnderflow _ => op.isLoop = true

/-! ### Encoding -/

/-- The bits of a packed operand field that R80 calls ignored, given its kind. -/
def ignoredBit (o : PackedOperand) (n : Nat) : Prop :=
  match (o.extractLsb' 0 2).toNat with
  | 0 => 2 ≤ n
  | 1 => n = 3 ∨ 8 ≤ n
  | 2 => 2 ≤ n ∧ n ≤ 7
  | _ => n = 2 ∨ o.getLsbD 3 = false ∧ 4 ≤ n ∧ n ≤ 7

/-! ### Frames -/

/-- Every byte of Memory reads as before. -/
def SameMemory (s t : State) : Prop := ∀ a, t.memByte a = s.memByte a

/-- What is not the program's to change: `status`, the program and the parameters (and the model's own
counter). -/
def SameHost (s t : State) : Prop :=
  t.status = s.status ∧ t.program = s.program ∧ t.params = s.params ∧ t.draws = s.draws

/-- Every register but one is as before, the instruction pointer apart. -/
def SameRegsBut (d : Slot) (s t : State) : Prop := ∀ r, r ≠ d → r ≠ ipSlot → t.reg r = s.reg r

/-- Every register is as before, the instruction pointer apart. -/
def SameRegs (s t : State) : Prop := ∀ r, r ≠ ipSlot → t.reg r = s.reg r

/-- The four flags as given, the other twelve bits of FLAGS as before (R137). -/
def FlagsAre (s t : State) (zf sf pf of : Bool) : Prop :=
  t.zf = zf ∧ t.sf = sf ∧ t.pf = pf ∧ t.of = of ∧ ∀ n, unnamedBit n → t.flags.getLsbD n = s.flags.getLsbD n

/-- The end of a step whose only register result goes to `d`: everything but that register, FLAGS and `pc` is as
before, and `pc` is the post-advance value unless `d` is the instruction pointer. -/
def OnlyRegister (len : Nat) (d : Slot) (s t : State) : Prop :=
  SameRegsBut d s t ∧ SameMemory s t ∧ SameHost s t ∧ (d ≠ ipSlot → t.pc = s.nextPc len)

/-- The end of a step that writes no register: everything but FLAGS, Memory and `pc` is as before, and `pc` is the
post-advance value. -/
def NoRegister (len : Nat) (s t : State) : Prop := SameRegs s t ∧ SameHost s t ∧ t.pc = s.nextPc len

/-! ### Branches -/

/-- A branch taken from the state `s` after the advance (R150): the sum of `pc` and the displacement is an
underflow below 0, the new `pc` up to 0xFFFF, and above it what `IP_OVERFLOW_MODE` says. -/
def Lands (disp : Int) (s : State) (o : Host.Outcome State Fault Refusal) : Prop :=
  ((s.pc.toNat : Int) + disp < 0 → o = .fault (.branchUnderflow s.pc disp)) ∧
  (∀ t : Nat, (s.pc.toNat : Int) + disp = t → t ≤ 0xFFFF → o = .next (s.setPc (BitVec.ofNat 16 t))) ∧
  (∀ t : Nat, (s.pc.toNat : Int) + disp = t → 0xFFFF < t →
    (s.params.ipOverflow = .fault → o = .fault (.ipOverflow t)) ∧
    (s.params.ipOverflow = .wrap → o = .next (s.setPc (BitVec.ofNat 16 (t % 65536)))))

/-- A branch decided in the state `s` after the advance (R151, R161): taken it lands, not taken the step ends in
`s`, whatever the displacement. -/
def Branches (taken : Prop) (disp : Int) (s : State) (o : Host.Outcome State Fault Refusal) : Prop :=
  (taken → Lands disp s o) ∧ (¬taken → o = .next s)

/-- The next state, if there is one, changed by a function; the fault or refusal kept. -/
def mapNext (g : State → State) : Host.Outcome State Fault Refusal → Host.Outcome State Fault Refusal
  | .next t => .next (g t)
  | .fault f => .fault f
  | .refused r => .refused r

end Sys2Proof.Machine
end

