-- ==== Sys2Proof/Certificates/Slice0/Obligations.lean ====
section
/-! DEFINITION. The statements for the provers: what the rules of spec/ say the machine does. -/

open Sys2Proof Sys2Proof.Machine

/-! ### State, Memory and reset (10_state.md, 20_memory.md) -/

/-- R24: a write of the LOW half of a slot leaves its bits 15:8 unchanged, a write of the HIGH half its bits
7:0. -/
def Obligations.HalfWriteKeepsOtherHalf : Prop :=
  ∀ (s : State) (r : Slot) (b : Byte),
    ((s.setHalf r .low b).reg r).extractLsb' 8 8 = (s.reg r).extractLsb' 8 8 ∧
    ((s.setHalf r .high b).reg r).extractLsb' 0 8 = (s.reg r).extractLsb' 0 8

/-- 20_memory.md section 3 (mixed-width access), on the little-endian order the spec decides (D8, log entry
12): the bytes of a stored word, the word itself, and the word one byte higher. -/
def Obligations.MixedWidthMemory : Prop :=
  ∀ (s : State) (a : Nat) (v : Word),
    (s.setMemWord a v).memByte a = v.extractLsb' 0 8 ∧
    (s.setMemWord a v).memByte (a + 1) = v.extractLsb' 8 8 ∧
    (s.setMemWord a v).memWord a = v ∧
    (s.setMemWord a v).memWord (a + 1) = joinBytes (s.memByte (a + 2)) (v.extractLsb' 8 8)

/-- 10_state.md section 7, the spec's own decision D22 (log entries 6 and 7; log entry 2 for the parameters):
what reset leaves. -/
def Obligations.ResetValues : Prop :=
  (∀ r : Slot, State.reset.reg r = 0#16) ∧ State.reset.flags = 0#16 ∧ (∀ a, State.reset.memByte a = 0#8) ∧
  State.reset.status = .running ∧ State.reset.params.memSize = 65535 ∧
  Slot.index (counterSlot State.reset.params) = 3 ∧ State.reset.params.ipOverflow = .fault ∧
  State.reset.params.counterUnderflow = .fault ∧ State.reset.params.immBits = 32

/-- The invariant holds right after reset. -/
def Obligations.ResetMeetsInvariant : Prop := State.reset.Inv

/-- 70_reset_and_hazards.md section 2 (launch state, D23; log entry 30): whatever the host loads, the launch state
is in canonical form and running, with the registers, FLAGS and parameters given. An address inside Memory holds
the last byte listed for it, any other address the reset byte 0x00 (D22, log entry 7); a pc has the last record
listed for it that exists at IMM_BITS, and none if there is none. -/
def Obligations.LaunchStateIsCanonical : Prop :=
  ∀ (p : Params) (regs : Vector Word 13) (flags : Word) (bytes : List Host.Cell)
    (program : List (Word × Record)),
    (State.launch p regs flags bytes program).Inv ∧
    (State.launch p regs flags bytes program).status = .running ∧
    (State.launch p regs flags bytes program).params = p ∧
    (∀ r : Slot, (State.launch p regs flags bytes program).reg r = regs[r.val]) ∧
    (State.launch p regs flags bytes program).flags = flags ∧
    (∀ front a v rest, bytes = front ++ (a, v) :: rest → (∀ c ∈ rest, c.1 ≠ a) → a < p.memSize →
      (State.launch p regs flags bytes program).memByte a = v) ∧
    (∀ a, (∀ c ∈ bytes, c.1 ≠ a) ∨ p.memSize ≤ a →
      (State.launch p regs flags bytes program).memByte a = 0#8) ∧
    (∀ front q i rest, program = front ++ (q, i) :: rest → i.wf p.immBits = true →
      (∀ c ∈ rest, c.1 = q → c.2.wf p.immBits = false) →
      Program.fetch (State.launch p regs flags bytes program).program q = some i) ∧
    ∀ q, (∀ c ∈ program, c.1 = q → c.2.wf p.immBits = false) →
      Program.fetch (State.launch p regs flags bytes program).program q = none

/-- The invariant of Memory and of the program (R50, R197) is kept by every step, from every state. -/
def Obligations.StepKeepsInvariant : Prop :=
  ∀ s t : State, s.Inv → step s = .next t → t.Inv

/-- The invariant holds along every run of the host, faulted ones too: the free contents after a fault are a
Memory of the same size. -/
def Obligations.RunKeepsInvariant : Prop :=
  ∀ (n : Nat) (s : State), s.Inv → (hostRun n s).Inv

/-- 20_memory.md section 5 (instruction fetch) and 10_state.md section 5: no step changes the program, the
parameters or the run status, so a store never changes a later instruction. -/
def Obligations.StepKeepsHostData : Prop :=
  ∀ s t : State, step s = .next t →
    t.status = .running ∧ t.program = s.program ∧ t.params = s.params ∧ t.draws = s.draws

/-! ### The step (40_dispatch.md, 70_reset_and_hazards.md, 60_exceptions.md) -/

/-- Where the program holds a record at pc that is an instruction, a step of a running state is exec of that
instruction in that state, whatever its values; so for the record of a packed word that decodes. exec itself
begins with the advance (log entry 20). -/
def Obligations.StepRunsDecodedInstruction : Prop :=
  (∀ (s : State) (r : Record) (i : Instr), s.status = .running → s.fetch = some r → r.instr = .ok i →
    step s = exec i s) ∧
  ∀ (s : State) (w : PackedWord) (i : Instr), s.status = .running → s.fetch = some (decodeRecord w) →
    decode w = .ok i → step s = exec i s

/-- 40_dispatch.md section 1 (dispatch on the operation kind), on the codes the spec decides (D17, log entry 17):
a record whose op is 0x00 or above 0x0C faults UNIMPLEMENTED with that op, unless the advance, which comes first,
faults (log entry 25). -/
def Obligations.UnimplementedKindsFault : Prop :=
  ∀ (s : State) (r : Record), s.status = .running → s.fetch = some r → (r.op.toNat = 0 ∨ 0x0C < r.op.toNat) →
    (s.CanAdvance r.len → step s = .fault (.unimplemented r.op)) ∧
    (¬s.CanAdvance r.len → step s = .fault (.ipOverflow ((s.pc.toNat : Int) + r.len)))

/-- 70_reset_and_hazards.md section 2 (run and end of run, D23), in the model's form (log entry 3): where the
program holds nothing at pc, a running state's step stops under the name endOfRun. -/
def Obligations.EndOfProgramStops : Prop :=
  ∀ s : State, s.status = .running → s.fetch = none → step s = .refused (.endOfRun s.pc)

/-- 60_exceptions.md section 1 (state after a fault, D21; log entry 4): a faulted state has no further step, and
no run of the host changes it. -/
def Obligations.FaultedRunIsFinal : Prop :=
  ∀ (s : State) (f : Fault), s.status = .faulted f → step s = .fault f ∧ ∀ n, hostRun n s = s

/-- 60_exceptions.md section 1 (fault outcome, D21; log entries 4 and 5): a fault of a running state's step is
recorded in status, with its kind and information, and stays recorded however long the host runs on. -/
def Obligations.FaultIsRecorded : Prop :=
  ∀ (s : State) (f : Fault) (n : Nat), s.status = .running → step s = .fault f →
    (hostRun (n + 1) s).status = .faulted f ∧ step (hostRun (n + 1) s) = .fault f

/-- No instruction is refused: the only refusal of a step is the end of the program. -/
def Obligations.RefusalOnlyAtEndOfRun : Prop :=
  (∀ (i : Instr) (s : State) (r : Refusal), exec i s ≠ .refused r) ∧
  ∀ (s : State) (r : Refusal), step s = .refused r → r = .endOfRun s.pc ∧ s.fetch = none ∧ s.status = .running

/-- The record of an instruction word placed at pc is the one the next step runs, and placing it changes nothing but
the program's entry at pc (log entries 1 and 28). -/
def Obligations.PlacedWordRunsNext : Prop :=
  ∀ (s : State) (nbits w : Nat), s.status = .running →
    step (s.withFetchWord nbits w) = execRecord (decodeRecord (tableWord nbits w)) (s.withFetchWord nbits w) ∧
    (∀ i, decodeTableWord nbits w = some i → step (s.withFetchWord nbits w) = exec i (s.withFetchWord nbits w)) ∧
    (∀ r, (s.withFetchWord nbits w).reg r = s.reg r) ∧ (s.withFetchWord nbits w).flags = s.flags ∧
    (s.withFetchWord nbits w).mem = s.mem ∧ (s.withFetchWord nbits w).status = s.status ∧
    (s.withFetchWord nbits w).params = s.params ∧ (s.withFetchWord nbits w).draws = s.draws ∧
    ∀ q, q ≠ s.pc → Program.fetch (s.withFetchWord nbits w).program q = Program.fetch s.program q

/-- 40_dispatch.md section 2 (return value): a step that does not fault returns pc at its end; this is the post-advance value, unless a branch changed
it by its displacement or slot 0 of a MOV, ADD or SUB names index 13. That index 13 is pc is the spec's decision D1
(log entry 8), the post-advance value and a taken branch's target mod 2^16 are D5 and D28 (log entries 10 and 19). -/
def Obligations.ReturnedPc : Prop :=
  ∀ (i : Instr) (s t : State), exec i s = .next t →
    returned (exec i s) = some (t.reg ipSlot) ∧
    (i.op.isBranch = false → (∀ h, i.slot0 ≠ .register 13 h) → t.reg ipSlot = s.nextPc i.len) ∧
    (i.op = .cmp → t.reg ipSlot = s.nextPc i.len) ∧
    (i.op.isBranch = true → t.reg ipSlot = s.nextPc i.len ∨
      ∃ disp, i.slot0 = .immediate disp ∧ t.reg ipSlot = s.nextPc i.len + BitVec.ofInt 16 disp)

/-- 40_dispatch.md section 1 (advance, D5; log entry 10): an advance above 0xFFFF in fault mode comes before every
other effect or fault, for every instruction and every operation kind. -/
def Obligations.AdvanceOverflowComesFirst : Prop :=
  (∀ (i : Instr) (s : State), ¬s.CanAdvance i.len →
    exec i s = .fault (.ipOverflow ((s.pc.toNat : Int) + i.len))) ∧
  ∀ (r : Record) (s : State), ¬s.CanAdvance r.len →
    execRecord r s = .fault (.ipOverflow ((s.pc.toNat : Int) + r.len))

/-- 40_dispatch.md section 1 (operand shape check) with the table of 30_encoding.md section 4, which the spec
decides (D16, D20; log entries 16 and 18): any other shape faults ILLEGAL_OPERAND with the first slot that is not
admitted, for every instruction. -/
def Obligations.IllegalShapesFault : Prop :=
  ∀ (i : Instr) (s : State), s.CanAdvance i.len →
    (i.slot0.kind ∉ (shapeTable i.op).1 → exec i s = .fault (.illegalOperand i.op 0 i.slot0.kind)) ∧
    (i.slot0.kind ∈ (shapeTable i.op).1 → i.slot1.kind ∉ (shapeTable i.op).2 →
      exec i s = .fault (.illegalOperand i.op 1 i.slot1.kind))

/-- 10_state.md section 2 (index range) on the shapes D16 admits (log entry 16): an index in [1, 13] names a slot,
and any other index, as a register operand or as a Memory base, in word and in byte instructions, in slot 0 or in
slot 1 after a good slot 0, faults REGISTER_INDEX with the index. That slot 0 faults whatever slot 1 of an admitted
kind holds, a bad index or address included, is the order the spec decides (D20, log entry 18). -/
def Obligations.RegisterIndexRange : Prop :=
  ∀ (s : State) (len i : Nat), s.CanAdvance len →
    (1 ≤ i ∧ i ≤ 13 → ∃ r : Slot, Slot.index r = i ∧ checkIndex i = .ok r) ∧
    (¬(1 ≤ i ∧ i ≤ 13) →
      (∀ mk ∈ movForms, ∀ o : Operand, o.kind ≠ .none →
        (∀ h, exec (mk len (.register i h) o) s = .fault (.registerIndex i)) ∧
        (∀ disp, exec (mk len (.memory (some i) disp) o) s = .fault (.registerIndex i))) ∧
      (∀ mk ∈ aluForms, ∀ (h : Half) (o : Operand), o.kind = .register ∨ o.kind = .immediate →
        exec (mk len (.register i h) o) s = .fault (.registerIndex i)) ∧
      (∀ mk ∈ movForms ++ aluForms, ∀ (d : Slot) (k h : Half),
        exec (mk len (regOp d k) (.register i h)) s = .fault (.registerIndex i)) ∧
      (∀ mk ∈ movForms, ∀ (d : Slot) (k : Half) (disp : Int),
        exec (mk len (regOp d k) (.memory (some i) disp)) s = .fault (.registerIndex i)) ∧
      (∀ mk ∈ movForms, ∀ (base : Option Slot) (disp : Int), s.InMemory (s.addressOf len base disp) →
        (∀ h, exec (mk len (memOp base disp) (.register i h)) s = .fault (.registerIndex i)) ∧
        (∀ d, exec (mk len (memOp base disp) (.memory (some i) d)) s = .fault (.registerIndex i))))

/-- 20_memory.md section 2 (bounds): an address `a` is admitted iff 0 <= a and a + 1 <= MEM_SIZE - 1, for loads,
stores and moves from Memory to Memory, of both widths; otherwise the instruction faults MEMORY_BOUNDS with the
integer `a`. That the sum is an integer and that a byte access keeps the check are the spec's decisions D11 and D10
(log entry 13), the forms of MOV are D16 (log entry 16), and that a destination out of bounds is reported whatever
slot 1 of an admitted kind holds, a source out of bounds after a good destination, is D20 (log entry 18). -/
def Obligations.MemoryBoundsCheck : Prop :=
  ∀ (s : State) (len : Nat) (base : Option Slot) (disp : Int), s.CanAdvance len →
    (s.InMemory (s.addressOf len base disp) → ∀ mk ∈ movForms,
      (∀ (d : Slot) (h : Half), ∃ t, exec (mk len (regOp d h) (memOp base disp)) s = .next t) ∧
      (∀ src : RegOrImm, ∃ t, exec (mk len (memOp base disp) src.operand) s = .next t) ∧
      (∀ (b : Option Slot) (c : Int), s.InMemory (s.addressOf len b c) →
        ∃ t, exec (mk len (memOp base disp) (memOp b c)) s = .next t) ∧
      (∀ (b : Option Slot) (c : Int), ¬s.InMemory (s.addressOf len b c) →
        exec (mk len (memOp base disp) (memOp b c)) s = .fault (.memoryBounds (s.addressOf len b c)))) ∧
    (¬s.InMemory (s.addressOf len base disp) → ∀ mk ∈ movForms,
      (∀ (d : Slot) (h : Half), exec (mk len (regOp d h) (memOp base disp)) s =
        .fault (.memoryBounds (s.addressOf len base disp))) ∧
      (∀ o : Operand, o.kind ≠ .none → exec (mk len (memOp base disp) o) s =
        .fault (.memoryBounds (s.addressOf len base disp))))

/-- 60_exceptions.md section 1 (the fault kinds' column "raised by"; D5 and D7 for the last two kinds, log entries
10 and 11): no instruction raises a fault that is not its own. -/
def Obligations.FaultsByFamily : Prop :=
  ∀ (i : Instr) (s : State) (f : Fault), exec i s = .fault f → mayRaise i.op f

/-- 60_exceptions.md section 1, the codes the spec decides (D19, log entry 18). -/
def Obligations.FaultCodes : Prop :=
  (∀ op, Fault.code (.unimplemented op) = 1) ∧ (∀ op slot kind, Fault.code (.illegalOperand op slot kind) = 2) ∧
  (∀ i, Fault.code (.registerIndex i) = 3) ∧ (∀ a, Fault.code (.memoryBounds a) = 4) ∧
  (∀ pc disp, Fault.code (.branchUnderflow pc disp) = 5) ∧ (∀ t, Fault.code (.ipOverflow t) = 6) ∧
  (∀ r, Fault.code (.counterUnderflow r) = 7)

/-! ### Encoding (30_encoding.md; codes and layout are the spec's decision D17, log entry 17) -/

/-- V-ENC-1 to V-ENC-6 of 95_test_vectors.md part 2.1, and a LOOPNZ word with the displacement -4 of E9 of part 1,
written out from R79 and R80, with the records they stand for. -/
def Obligations.DecodeOfSpecWords : Prop :=
  decode 0x00000003020000000031030101#104 = .ok (.movW 3 (.register 3 .low) (.immediate 3)) ∧
  decode 0x00000000210000000015020001#104 = .ok (.movB 2 (.register 1 .high) (.register 2 .low)) ∧
  decode 0xffffffff02000003e803030101#104 = .ok (.movW 3 (.memory none 1000) (.immediate (-1))) ∧
  decode 0x0000000011000000022b030101#104 = .ok (.movW 3 (.memory (some 2) 2) (.register 1 .low)) ∧
  decode 0x0000000000fffffff802020106#104 = .ok (.jne true 2 (.immediate (-8)) .none) ∧
  decode 0xfffffffe2b0000000011030002#104 = .ok (.addB 3 (.register 1 .low) (.memory (some 2) (-2))) ∧
  decode 0x0000000000fffffffc0202010c#104 = .ok (.loopnz true 2 (.immediate (-4)) .none)

/-- Decoding an encoded well-formed instruction gives it back, with every operand at every value the packed form
admits. -/
def Obligations.DecodeEncode : Prop := ∀ i : Instr, i.wf = true → decode (encode i) = .ok i

/-- Every word the decoder accepts is a well-formed instruction, so encoding and decoding it again gives it back. -/
def Obligations.DecodedIsWellFormed : Prop :=
  ∀ (w : PackedWord) (i : Instr), decode w = .ok i → i.wf = true ∧ decode (encode i) = decode w

/-- The decoder reads op, wide and len from bits [7:0], [8] and [23:16], and accepts exactly the codes 0x01 to
0x0C. -/
def Obligations.DecodeReadsHeader : Prop :=
  ∀ w : PackedWord,
    (∀ i, decode w = .ok i → i.op.code = w.extractLsb' 0 8 ∧ i.wide = w.getLsbD 8 ∧
      i.len = (w.extractLsb' 16 8).toNat) ∧
    ((∃ i, decode w = .ok i) ↔ 1 ≤ (w.extractLsb' 0 8).toNat ∧ (w.extractLsb' 0 8).toNat ≤ 0x0C)

/-- The reserved bits [15:9] of the word and the ignored bits of an operand field have no effect. -/
def Obligations.IgnoredBitsHaveNoEffect : Prop :=
  (∀ (w : PackedWord) (n : Nat), 9 ≤ n → n ≤ 15 → decode (w ^^^ BitVec.twoPow 104 n) = decode w) ∧
  ∀ (o : PackedOperand) (n : Nat), n < 40 → ignoredBit o n →
    decodeOperand (o ^^^ BitVec.twoPow 40 n) = decodeOperand o

/-! ### MOV (41_move.md; byte order D8 and byte access D10: log entries 12 and 13) -/

/-- MOV.W into a register: the full source word, from a register, an immediate mod 2^16, or Memory; FLAGS and
everything else unchanged. -/
def Obligations.MovWordIntoRegister : Prop :=
  ∀ (s : State) (len : Nat) (d : Slot) (h : Half), s.CanAdvance len →
    (∀ src : RegOrImm, ∃ t, exec (.movW len (regOp d h) src.operand) s = .next t ∧
      t.reg d = src.word len s ∧ t.flags = s.flags ∧ OnlyRegister len d s t) ∧
    (∀ (base : Option Slot) (disp : Int) (a : Nat), s.addressOf len base disp = a → s.InMemory a →
      ∃ t, exec (.movW len (regOp d h) (memOp base disp)) s = .next t ∧
        t.reg d = joinBytes (s.memByte (a + 1)) (s.memByte a) ∧ t.flags = s.flags ∧ OnlyRegister len d s t)

/-- MOV.B into a register: only the selected half, from a register half, an immediate mod 2^8, or one byte of
Memory; the other half keeps its value (for index 13 the post-advance value, log entry 23), FLAGS and everything
else unchanged. -/
def Obligations.MovByteIntoRegister : Prop :=
  ∀ (s : State) (len : Nat) (d : Slot) (h : Half), s.CanAdvance len →
    (∀ src : RegOrImm, ∃ t, exec (.movB len (regOp d h) src.operand) s = .next t ∧
      t.half d h = src.byte len s ∧ t.half d h.other = halfOf h.other (s.regAfter len d) ∧
      t.flags = s.flags ∧ OnlyRegister len d s t) ∧
    (∀ (base : Option Slot) (disp : Int) (a : Nat), s.addressOf len base disp = a → s.InMemory a →
      ∃ t, exec (.movB len (regOp d h) (memOp base disp)) s = .next t ∧
        t.half d h = s.memByte a ∧ t.half d h.other = halfOf h.other (s.regAfter len d) ∧
        t.flags = s.flags ∧ OnlyRegister len d s t)

/-- MOV.W into Memory: the low byte of the source at the address and the high byte one above, from a register, an
immediate or Memory, which is read before anything is written (D30, log entry 20); every other byte, FLAGS and the
registers unchanged. -/
def Obligations.MovWordIntoMemory : Prop :=
  ∀ (s : State) (len : Nat) (base : Option Slot) (disp : Int) (a : Nat), s.CanAdvance len →
    s.addressOf len base disp = a → s.InMemory a →
    (∀ src : RegOrImm, ∃ t, exec (.movW len (memOp base disp) src.operand) s = .next t ∧
      t.memByte a = loByte (src.word len s) ∧ t.memByte (a + 1) = hiByte (src.word len s) ∧
      (∀ q, q ≠ a → q ≠ a + 1 → t.memByte q = s.memByte q) ∧ t.flags = s.flags ∧ NoRegister len s t) ∧
    (∀ (base' : Option Slot) (disp' : Int) (a' : Nat), s.addressOf len base' disp' = a' → s.InMemory a' →
      ∃ t, exec (.movW len (memOp base disp) (memOp base' disp')) s = .next t ∧
        t.memByte a = s.memByte a' ∧ t.memByte (a + 1) = s.memByte (a' + 1) ∧
        (∀ q, q ≠ a → q ≠ a + 1 → t.memByte q = s.memByte q) ∧ t.flags = s.flags ∧ NoRegister len s t)

/-- MOV.B into Memory: one byte at the address; every other byte, FLAGS and the registers unchanged. -/
def Obligations.MovByteIntoMemory : Prop :=
  ∀ (s : State) (len : Nat) (base : Option Slot) (disp : Int) (a : Nat), s.CanAdvance len →
    s.addressOf len base disp = a → s.InMemory a →
    (∀ src : RegOrImm, ∃ t, exec (.movB len (memOp base disp) src.operand) s = .next t ∧
      t.memByte a = src.byte len s ∧ (∀ q, q ≠ a → t.memByte q = s.memByte q) ∧ t.flags = s.flags ∧
      NoRegister len s t) ∧
    (∀ (base' : Option Slot) (disp' : Int) (a' : Nat), s.addressOf len base' disp' = a' → s.InMemory a' →
      ∃ t, exec (.movB len (memOp base disp) (memOp base' disp')) s = .next t ∧
        t.memByte a = s.memByte a' ∧ (∀ q, q ≠ a → t.memByte q = s.memByte q) ∧ t.flags = s.flags ∧
        NoRegister len s t)

/-- 41_move.md section on MOV, flags: MOV neither writes nor reads FLAGS. -/
def Obligations.MovIgnoresFlags : Prop :=
  ∀ (i : Instr) (s : State) (f : Word), i.op = .mov →
    exec i (s.setFlags f) = mapNext (fun t => t.setFlags f) (exec i s)

/-! ### ADD, SUB and CMP (42_alu.md; OF by D13, ZF by D14, flags cleared as well as set by D15: log entry 15) -/

/-- ADD.W on every admitted form: the wrapped sum, the four flags, and nothing else. -/
def Obligations.AddWord : Prop :=
  ∀ (s : State) (len : Nat) (d : Slot) (h : Half) (src : RegOrImm), s.CanAdvance len →
    ∃ t, exec (.addW len (regOp d h) src.operand) s = .next t ∧
      t.reg d = s.regAfter len d + src.word len s ∧
      FlagsAre s t (decide (s.regAfter len d + src.word len s = 0#16))
        ((s.regAfter len d + src.word len s).getLsbD 15)
        (evenOnes (loByte (s.regAfter len d + src.word len s)))
        (decide (0xFFFF < (s.regAfter len d).toNat + (src.word len s).toNat)) ∧
      OnlyRegister len d s t

/-- ADD.B on every admitted form: the wrapped sum in the selected half, the other half kept (for index 13 the
post-advance one, log entry 23), the four flags, and nothing else. -/
def Obligations.AddByte : Prop :=
  ∀ (s : State) (len : Nat) (d : Slot) (h : Half) (src : RegOrImm), s.CanAdvance len →
    ∃ t, exec (.addB len (regOp d h) src.operand) s = .next t ∧
      t.half d h = halfOf h (s.regAfter len d) + src.byte len s ∧
      t.half d h.other = halfOf h.other (s.regAfter len d) ∧
      FlagsAre s t (decide (halfOf h (s.regAfter len d) + src.byte len s = 0#8))
        ((halfOf h (s.regAfter len d) + src.byte len s).getLsbD 7)
        (evenOnes (halfOf h (s.regAfter len d) + src.byte len s))
        (decide (0xFF < (halfOf h (s.regAfter len d)).toNat + (src.byte len s).toNat)) ∧
      OnlyRegister len d s t

/-- SUB.W on every admitted form: the wrapped difference, the four flags with OF the unsigned borrow, and nothing
else. -/
def Obligations.SubWord : Prop :=
  ∀ (s : State) (len : Nat) (d : Slot) (h : Half) (src : RegOrImm), s.CanAdvance len →
    ∃ t, exec (.subW len (regOp d h) src.operand) s = .next t ∧
      t.reg d = s.regAfter len d - src.word len s ∧
      FlagsAre s t (decide (s.regAfter len d = src.word len s))
        ((s.regAfter len d - src.word len s).getLsbD 15)
        (evenOnes (loByte (s.regAfter len d - src.word len s)))
        (decide ((s.regAfter len d).toNat < (src.word len s).toNat)) ∧
      OnlyRegister len d s t

/-- SUB.B on every admitted form: as ADD.B, the wrapped difference in the selected half, the other half kept (for
index 13 the post-advance one, log entry 23), the four flags with OF the unsigned borrow, and nothing else. -/
def Obligations.SubByte : Prop :=
  ∀ (s : State) (len : Nat) (d : Slot) (h : Half) (src : RegOrImm), s.CanAdvance len →
    ∃ t, exec (.subB len (regOp d h) src.operand) s = .next t ∧
      t.half d h = halfOf h (s.regAfter len d) - src.byte len s ∧
      t.half d h.other = halfOf h.other (s.regAfter len d) ∧
      FlagsAre s t (decide (halfOf h (s.regAfter len d) = src.byte len s))
        ((halfOf h (s.regAfter len d) - src.byte len s).getLsbD 7)
        (evenOnes (halfOf h (s.regAfter len d) - src.byte len s))
        (decide ((halfOf h (s.regAfter len d)).toNat < (src.byte len s).toNat)) ∧
      OnlyRegister len d s t

/-- CMP.W on every admitted form: the flags of the subtraction, and no register, not even the destination, and no
byte of Memory written. -/
def Obligations.CmpWord : Prop :=
  ∀ (s : State) (len : Nat) (d : Slot) (h : Half) (src : RegOrImm), s.CanAdvance len →
    ∃ t, exec (.cmpW len (regOp d h) src.operand) s = .next t ∧
      FlagsAre s t (decide (s.regAfter len d = src.word len s))
        ((s.regAfter len d - src.word len s).getLsbD 15)
        (evenOnes (loByte (s.regAfter len d - src.word len s)))
        (decide ((s.regAfter len d).toNat < (src.word len s).toNat)) ∧
      NoRegister len s t ∧ SameMemory s t

/-- CMP.B on every admitted form. -/
def Obligations.CmpByte : Prop :=
  ∀ (s : State) (len : Nat) (d : Slot) (h : Half) (src : RegOrImm), s.CanAdvance len →
    ∃ t, exec (.cmpB len (regOp d h) src.operand) s = .next t ∧
      FlagsAre s t (decide (halfOf h (s.regAfter len d) = src.byte len s))
        ((halfOf h (s.regAfter len d) - src.byte len s).getLsbD 7)
        (evenOnes (halfOf h (s.regAfter len d) - src.byte len s))
        (decide ((halfOf h (s.regAfter len d)).toNat < (src.byte len s).toNat)) ∧
      NoRegister len s t ∧ SameMemory s t

/-- R132: ADD and SUB write the raw integer result mod 2^16, or mod 2^8 into the selected half, and SF, for CMP too,
is the 16-bit or the 8-bit sign of it. How an immediate is read is the spec's decision D12 (log entry 14). -/
def Obligations.TruncatedResultIsWritten : Prop :=
  ∀ (s t : State) (len : Nat) (d : Slot) (h : Half) (src : RegOrImm),
    (exec (.addW len (regOp d h) src.operand) s = .next t →
      ((t.reg d).toNat : Int) = (((s.regAfter len d).toNat : Int) + (src.word len s).toNat) % 65536 ∧
      t.sf = decide (2 ^ 15 ≤ (t.reg d).toNat)) ∧
    (exec (.subW len (regOp d h) src.operand) s = .next t →
      ((t.reg d).toNat : Int) = (((s.regAfter len d).toNat : Int) - (src.word len s).toNat) % 65536 ∧
      t.sf = decide (2 ^ 15 ≤ (t.reg d).toNat)) ∧
    (exec (.addB len (regOp d h) src.operand) s = .next t →
      ((t.half d h).toNat : Int) = (((halfOf h (s.regAfter len d)).toNat : Int) + (src.byte len s).toNat) % 256 ∧
      t.sf = decide (2 ^ 7 ≤ (t.half d h).toNat)) ∧
    (exec (.subB len (regOp d h) src.operand) s = .next t →
      ((t.half d h).toNat : Int) = (((halfOf h (s.regAfter len d)).toNat : Int) - (src.byte len s).toNat) % 256 ∧
      t.sf = decide (2 ^ 7 ≤ (t.half d h).toNat)) ∧
    (exec (.cmpW len (regOp d h) src.operand) s = .next t →
      t.sf = decide (2 ^ 15 ≤ (((s.regAfter len d).toNat : Int) - (src.word len s).toNat) % 65536)) ∧
    (exec (.cmpB len (regOp d h) src.operand) s = .next t →
      t.sf = decide (2 ^ 7 ≤ (((halfOf h (s.regAfter len d)).toNat : Int) - (src.byte len s).toNat) % 256))

/-- R134: SF is bit 15 of the result of a word ADD, SUB or CMP and bit 7 of the result of a byte one. -/
def Obligations.SignFlagIsTopBit : Prop :=
  ∀ (s : State) (len : Nat) (d : Slot) (h : Half) (src : RegOrImm) (t : State),
    (exec (.addW len (regOp d h) src.operand) s = .next t →
      t.sf = (s.regAfter len d + src.word len s).getLsbD 15) ∧
    (exec (.subW len (regOp d h) src.operand) s = .next t ∨ exec (.cmpW len (regOp d h) src.operand) s = .next t →
      t.sf = (s.regAfter len d - src.word len s).getLsbD 15) ∧
    (exec (.addB len (regOp d h) src.operand) s = .next t →
      t.sf = (halfOf h (s.regAfter len d) + src.byte len s).getLsbD 7) ∧
    (exec (.subB len (regOp d h) src.operand) s = .next t ∨ exec (.cmpB len (regOp d h) src.operand) s = .next t →
      t.sf = (halfOf h (s.regAfter len d) - src.byte len s).getLsbD 7)

/-- R135: PF is 1 iff the low byte of the result of ADD, SUB or CMP has an even number of 1 bits, at both
widths. -/
def Obligations.ParityFlagCountsLowByte : Prop :=
  ∀ (s : State) (len : Nat) (d : Slot) (h : Half) (src : RegOrImm) (t : State),
    (exec (.addW len (regOp d h) src.operand) s = .next t →
      t.pf = evenOnes ((s.regAfter len d + src.word len s).extractLsb' 0 8)) ∧
    (exec (.subW len (regOp d h) src.operand) s = .next t ∨ exec (.cmpW len (regOp d h) src.operand) s = .next t →
      t.pf = evenOnes ((s.regAfter len d - src.word len s).extractLsb' 0 8)) ∧
    (exec (.addB len (regOp d h) src.operand) s = .next t →
      t.pf = evenOnes (halfOf h (s.regAfter len d) + src.byte len s)) ∧
    (exec (.subB len (regOp d h) src.operand) s = .next t ∨ exec (.cmpB len (regOp d h) src.operand) s = .next t →
      t.pf = evenOnes (halfOf h (s.regAfter len d) - src.byte len s))

/-- 10_state.md section 4 (who writes FLAGS, D15 and D35; log entries 15 and 22): no instruction but ADD, SUB and
CMP changes FLAGS, and these change only PF, ZF, SF and OF. -/
def Obligations.OnlyAluWritesFlags : Prop :=
  ∀ (i : Instr) (s t : State), exec i s = .next t →
    (i.op.isAlu = false → t.flags = s.flags) ∧
    ∀ n, unnamedBit n → t.flags.getLsbD n = s.flags.getLsbD n

/-- 10_state.md section 4: along every run of the host that has not faulted, the twelve unnamed bits of FLAGS keep the
value of the launch state, and the parameters and the program stay as launched. -/
def Obligations.UnnamedFlagsAlongARun : Prop :=
  ∀ (n : Nat) (s : State), (hostRun n s).status = .running →
    (∀ b, unnamedBit b → (hostRun n s).flags.getLsbD b = s.flags.getLsbD b) ∧
    (hostRun n s).program = s.program ∧ (hostRun n s).params = s.params

/-- 42_alu.md section 2 (CMP, corner cases; OF by D13): after a compare, JB is taken iff the first comparand is
below the second as an unsigned number, and JE iff they are equal, at both widths. -/
def Obligations.BelowAfterCompare : Prop :=
  ∀ (s t u : State) (len l : Nat) (d : Slot) (h : Half) (src : RegOrImm) (wide : Bool) (disp : Int),
    t.CanAdvance l →
    (exec (.cmpW len (regOp d h) src.operand) s = .next t →
      (exec (.jb wide l (.immediate disp) .none) t = .next u →
        u.pc = if (s.regAfter len d).toNat < (src.word len s).toNat then t.nextPc l + BitVec.ofInt 16 disp
          else t.nextPc l) ∧
      (exec (.je wide l (.immediate disp) .none) t = .next u →
        u.pc = if s.regAfter len d = src.word len s then t.nextPc l + BitVec.ofInt 16 disp else t.nextPc l)) ∧
    (exec (.cmpB len (regOp d h) src.operand) s = .next t →
      (exec (.jb wide l (.immediate disp) .none) t = .next u →
        u.pc = if (halfOf h (s.regAfter len d)).toNat < (src.byte len s).toNat
          then t.nextPc l + BitVec.ofInt 16 disp else t.nextPc l) ∧
      (exec (.je wide l (.immediate disp) .none) t = .next u →
        u.pc = if halfOf h (s.regAfter len d) = src.byte len s then t.nextPc l + BitVec.ofInt 16 disp
          else t.nextPc l))

/-! ### The Control-Flow Unit (43_control_flow.md; IP above 0xFFFF by D5, wide and displacement by D28: log
entries 10 and 19) -/

/-- JE is taken iff ZF = 1 and JNE iff ZF = 0; taken, pc is the post-advance pc plus the displacement, or the fault
of leaving the range; not taken, only the advance happens. -/
def Obligations.JumpsOnZeroFlag : Prop :=
  ∀ (s : State) (wide : Bool) (len : Nat) (disp : Int), s.CanAdvance len →
    Branches (s.zf = true) disp (s.advanced len) (exec (.je wide len (.immediate disp) .none) s) ∧
    Branches (s.zf = false) disp (s.advanced len) (exec (.jne wide len (.immediate disp) .none) s)

/-- JP is taken iff PF = 1 and JNP iff PF = 0. -/
def Obligations.JumpsOnParityFlag : Prop :=
  ∀ (s : State) (wide : Bool) (len : Nat) (disp : Int), s.CanAdvance len →
    Branches (s.pf = true) disp (s.advanced len) (exec (.jp wide len (.immediate disp) .none) s) ∧
    Branches (s.pf = false) disp (s.advanced len) (exec (.jnp wide len (.immediate disp) .none) s)

/-- JB is taken iff OF = 1 and JNB iff OF = 0 (OF is the spec's borrow proxy, D13). -/
def Obligations.JumpsOnOverflowFlag : Prop :=
  ∀ (s : State) (wide : Bool) (len : Nat) (disp : Int), s.CanAdvance len →
    Branches (s.of = true) disp (s.advanced len) (exec (.jb wide len (.immediate disp) .none) s) ∧
    Branches (s.of = false) disp (s.advanced len) (exec (.jnb wide len (.immediate disp) .none) s)

/-- LOOPZ with a counter it can decrement (nonzero, or `COUNTER_UNDERFLOW_MODE = wrap`, D6 and D7; log entry 11):
the counter goes down by 1 mod 2^16, then the branch is taken iff the new counter is nonzero and ZF = 1. -/
def Obligations.LoopzDecrementsThenBranches : Prop :=
  ∀ (s : State) (wide : Bool) (len : Nat) (disp : Int), s.CanAdvance len →
    (s.reg (counterSlot s.params) ≠ 0#16 ∨ s.params.counterUnderflow = .wrap) →
    Branches (s.reg (counterSlot s.params) - 1#16 ≠ 0#16 ∧ s.zf = true) disp
      ((s.advanced len).setReg (counterSlot s.params) (s.reg (counterSlot s.params) - 1#16))
      (exec (.loopz wide len (.immediate disp) .none) s)

/-- LOOPNZ likewise, with ZF = 0 (D6 and D7; log entry 11). -/
def Obligations.LoopnzDecrementsThenBranches : Prop :=
  ∀ (s : State) (wide : Bool) (len : Nat) (disp : Int), s.CanAdvance len →
    (s.reg (counterSlot s.params) ≠ 0#16 ∨ s.params.counterUnderflow = .wrap) →
    Branches (s.reg (counterSlot s.params) - 1#16 ≠ 0#16 ∧ s.zf = false) disp
      ((s.advanced len).setReg (counterSlot s.params) (s.reg (counterSlot s.params) - 1#16))
      (exec (.loopnz wide len (.immediate disp) .none) s)

/-- 43_control_flow.md section 3, `COUNTER_UNDERFLOW_MODE = fault` (D7, log entry 11): a loop whose counter is 0
faults with the counter's index, whatever the displacement. -/
def Obligations.LoopCounterUnderflow : Prop :=
  ∀ (s : State) (wide : Bool) (len : Nat) (disp : Int), s.CanAdvance len →
    s.reg (counterSlot s.params) = 0#16 → s.params.counterUnderflow = .fault → ∀ mk ∈ loopForms,
    exec (mk wide len (.immediate disp) .none) s =
      .fault (.counterUnderflow (s.params.counterSlot.val + 1))

/-! ### Frames and whole-machine rules -/

/-- What an instruction whose slot 0 is a register leaves unchanged, whatever its source: every register but that
one (and for CMP that one too) and pc, every byte of Memory, the host's data, the unnamed bits of FLAGS, and for MOV
all of FLAGS. -/
def Obligations.FrameOfRegisterDestination : Prop :=
  ∀ mk ∈ movForms ++ aluForms, ∀ (len i : Nat) (h : Half) (src : Operand) (s t : State),
    exec (mk len (.register i h) src) s = .next t →
    (∀ r : Slot, Slot.index r ≠ i → r ≠ ipSlot → t.reg r = s.reg r) ∧
    ((mk len (.register i h) src).op = .cmp → SameRegs s t) ∧
    SameMemory s t ∧ SameHost s t ∧
    (∀ n, unnamedBit n → t.flags.getLsbD n = s.flags.getLsbD n) ∧
    ((mk len (.register i h) src).op = .mov → t.flags = s.flags)

/-- What a MOV whose slot 0 is Memory leaves unchanged, whatever its source: every register but pc, FLAGS, the
host's data, and every byte but the two (MOV.W) or the one (MOV.B) at the address the Address Resolver gives in
the state after the advance. -/
def Obligations.FrameOfMemoryDestination : Prop :=
  ∀ (len : Nat) (base : Option Nat) (disp : Int) (src : Operand) (s t : State),
    (exec (.movW len (.memory base disp) src) s = .next t →
      NoRegister len s t ∧ t.flags = s.flags ∧
      ∀ a, ea base disp (s.advanced len) = .ok a →
        ∀ q, q ≠ a → q ≠ a + 1 → t.memByte q = s.memByte q) ∧
    (exec (.movB len (.memory base disp) src) s = .next t →
      NoRegister len s t ∧ t.flags = s.flags ∧
      ∀ a, ea base disp (s.advanced len) = .ok a → ∀ q, q ≠ a → t.memByte q = s.memByte q)

/-- What a jump leaves unchanged: every register but pc, FLAGS, every byte of Memory, the host's data; a loop also
changes the counter, and it alone. -/
def Obligations.FrameOfBranches : Prop :=
  ∀ (wide : Bool) (len : Nat) (a b : Operand) (s t : State),
    (∀ mk ∈ jumpForms, exec (mk wide len a b) s = .next t →
      SameRegs s t ∧ t.flags = s.flags ∧ SameMemory s t ∧ SameHost s t) ∧
    (∀ mk ∈ loopForms, exec (mk wide len a b) s = .next t →
      SameRegsBut (counterSlot s.params) s t ∧ t.flags = s.flags ∧ SameMemory s t ∧ SameHost s t)

/-- 20_memory.md section 1 (only MOV reaches Memory, D16; log entry 16): every other instruction behaves the same
whatever Memory holds, and leaves it as it is. -/
def Obligations.OnlyMovReachesMemory : Prop :=
  ∀ (i : Instr) (s : State) (m : Memory), i.op ≠ .mov →
    exec i { s with mem := m } = mapNext (fun t => { t with mem := m }) (exec i s)

/-- 10_state.md section 3 (S0 to S3 are read only as named operands, D33; log entry 8), for every register: a
register that an instruction does not name, that is not pc and not a loop's counter, is neither read nor written. -/
def Obligations.UnnamedRegistersAreInert : Prop :=
  ∀ (i : Instr) (s : State) (r : Slot) (v : Word), r ≠ ipSlot → ¬i.slot0.names (Slot.index r) →
    ¬i.slot1.names (Slot.index r) → (i.op.isLoop = true → r ≠ counterSlot s.params) →
    exec i (s.setReg r v) = mapNext (fun t => t.setReg r v) (exec i s)

/-! ### Records and IMM_BITS (30_encoding.md) -/

/-- 30_encoding.md section 3 (the packed form carries the record, R78): every record the packed port carries, of any
operation kind, comes back from its word, and every word carries such a record. At the default IMM_BITS = 32 these
are exactly the records that exist and whose indices fit 4 bits (D12 and D17; log entries 14 and 17). -/
def Obligations.PackedFormCarriesRecords : Prop :=
  (∀ r : Record, r.packable = true → decodeRecord (encodeRecord r) = r) ∧
  (∀ w : PackedWord, (decodeRecord w).packable = true) ∧
  ∀ r : Record, r.packable = true ↔
    r.wf Params.default.immBits = true ∧ r.slot0.indexFits = true ∧ r.slot1.indexFits = true

/-- 30_encoding.md section 2 (IMMEDIATE and MEMORY values, R75; the width is the spec's decision D12, log entry
14): at any IMM_BITS of at least 1 a record exists iff its len is at most 255 and each immediate or displacement in
it is in [-2^(IMM_BITS-1), 2^(IMM_BITS-1) - 1]. -/
def Obligations.RecordRange : Prop :=
  ∀ (n : Nat) (r : Record),
    r.wf (n + 1) = true ↔ r.len ≤ 255 ∧ ∀ o ∈ [r.slot0, r.slot1], ∀ v : Int,
      (o = .immediate v ∨ ∃ base, o = .memory base v) → -(2 ^ n : Int) ≤ v ∧ v ≤ 2 ^ n - 1
end

