-- ==== Sys2Proof/Laws/Cells.lean ====
section
/-! SUPPORT. Lists of cells: a read after an update, and the canonical order kept by every update. -/

namespace Sys2Proof.Machine

variable {α : Type}

theorem cellsGet_put (k q : Nat) (v : α) (l : List (Nat × α)) :
    cellsGet q (cellsPut k v l) = if q = k then some v else cellsGet q l := by
  induction l with
  | nil => simp [cellsPut, cellsGet, eq_comm]
  | cons c rest ih =>
    obtain ⟨j, u⟩ := c
    by_cases hlt : k < j
    · simp [cellsPut, hlt, cellsGet, eq_comm]
    · by_cases heq : k = j
      · subst heq
        by_cases hq : q = k
        · subst hq; simp [cellsPut, cellsGet]
        · have : k ≠ q := fun h => hq h.symm
          simp [cellsPut, cellsGet, hq, this]
      · by_cases hj : j = q
        · subst hj
          have : j ≠ k := fun h => heq h.symm
          simp [cellsPut, hlt, heq, cellsGet, this]
        · simp [cellsPut, hlt, heq, cellsGet, hj, ih]

theorem cellsGet_drop (k q : Nat) (l : List (Nat × α)) :
    cellsGet q (cellsDrop k l) = if q = k then none else cellsGet q l := by
  induction l with
  | nil => simp [cellsDrop, cellsGet]
  | cons c rest ih =>
    obtain ⟨j, u⟩ := c
    by_cases hj : j = k
    · subst hj
      by_cases hq : q = j
      · subst hq; simpa [cellsDrop] using ih
      · have : j ≠ q := fun h => hq h.symm
        simp [cellsDrop, ih, hq, cellsGet, this]
    · by_cases hq : j = q
      · subst hq; simp [cellsDrop, hj, cellsGet]
      · simp [cellsDrop, hj, cellsGet, hq, ih]

theorem mem_cellsPut {k : Nat} {v : α} {l : List (Nat × α)} {c : Nat × α} (h : c ∈ cellsPut k v l) :
    c = (k, v) ∨ c ∈ l := by
  induction l with
  | nil => simpa [cellsPut] using h
  | cons d rest ih =>
    obtain ⟨j, u⟩ := d
    by_cases hlt : k < j
    · simpa [cellsPut, hlt] using h
    · by_cases heq : k = j
      · subst heq
        simp only [cellsPut, lt_irrefl, if_false, if_true, List.mem_cons] at h ⊢
        exact h.imp_right .inr
      · simp only [cellsPut, hlt, heq, if_false, List.mem_cons] at h ⊢
        rcases h with h | h
        · exact .inr (.inl h)
        · rcases ih h with h | h
          · exact .inl h
          · exact .inr (.inr h)

theorem mem_cellsDrop {k : Nat} {l : List (Nat × α)} {c : Nat × α} (h : c ∈ cellsDrop k l) : c ∈ l := by
  induction l with
  | nil => simp [cellsDrop] at h
  | cons d rest ih =>
    obtain ⟨j, u⟩ := d
    by_cases hj : j = k
    · simp only [cellsDrop, hj, if_true] at h
      exact List.mem_cons_of_mem _ (ih h)
    · simp only [cellsDrop, hj, if_false, List.mem_cons] at h ⊢
      exact h.imp id ih

theorem rising_cellsPut (k : Nat) (v : α) {l : List (Nat × α)} (h : Rising l) : Rising (cellsPut k v l) := by
  induction l with
  | nil => simp [cellsPut]
  | cons d rest ih =>
    obtain ⟨j, u⟩ := d
    have hrest := List.pairwise_cons.mp h
    by_cases hlt : k < j
    · simp only [cellsPut, hlt, if_true]
      refine List.pairwise_cons.mpr ⟨fun c hc => ?_, h⟩
      rcases List.mem_cons.mp hc with rfl | hc
      · exact hlt
      · exact Nat.lt_trans hlt (hrest.1 c hc)
    · by_cases heq : k = j
      · subst heq
        simpa [cellsPut] using h
      · simp only [cellsPut, hlt, heq, if_false]
        refine List.pairwise_cons.mpr ⟨fun c hc => ?_, ih hrest.2⟩
        rcases mem_cellsPut hc with rfl | hc
        · show j < k
          omega
        · exact hrest.1 c hc

theorem rising_cellsDrop (k : Nat) {l : List (Nat × α)} (h : Rising l) : Rising (cellsDrop k l) := by
  induction l with
  | nil => simp [cellsDrop]
  | cons d rest ih =>
    obtain ⟨j, u⟩ := d
    have hrest := List.pairwise_cons.mp h
    by_cases hj : j = k
    · simpa [cellsDrop, hj] using ih hrest.2
    · simp only [cellsDrop, hj, if_false]
      exact List.pairwise_cons.mpr ⟨fun c hc => hrest.1 c (mem_cellsDrop hc), ih hrest.2⟩

end Sys2Proof.Machine
end

