-- ==== Sys2Proof/Laws/State.lean ====
section
/-! SUPPORT. One lemma per field per update of State, so that no later proof unfolds a record update. -/

namespace Sys2Proof.Machine

/-! ### setReg -/

theorem State.reg_setReg (s : State) (r q : Slot) (v : Word) :
    (s.setReg r v).reg q = if q = r then v else s.reg q := by
  by_cases h : q = r
  · subst h; simp [State.reg, State.setReg]
  · have : r.val ≠ q.val := fun e => h (Fin.ext e.symm)
    simp [State.reg, State.setReg, h, Vector.getElem_set_ne, this]

@[simp] theorem State.reg_setReg_same (s : State) (r : Slot) (v : Word) : (s.setReg r v).reg r = v := by
  simp [State.reg_setReg]

@[simp] theorem State.reg_setReg_ne (s : State) (r q : Slot) (v : Word) (h : q ≠ r) :
    (s.setReg r v).reg q = s.reg q := by
  simp [State.reg_setReg, h]

@[simp] theorem State.flags_setReg (s : State) (r : Slot) (v : Word) : (s.setReg r v).flags = s.flags := rfl
@[simp] theorem State.mem_setReg (s : State) (r : Slot) (v : Word) : (s.setReg r v).mem = s.mem := rfl
@[simp] theorem State.status_setReg (s : State) (r : Slot) (v : Word) : (s.setReg r v).status = s.status := rfl
@[simp] theorem State.program_setReg (s : State) (r : Slot) (v : Word) :
    (s.setReg r v).program = s.program := rfl
@[simp] theorem State.params_setReg (s : State) (r : Slot) (v : Word) : (s.setReg r v).params = s.params := rfl
@[simp] theorem State.draws_setReg (s : State) (r : Slot) (v : Word) : (s.setReg r v).draws = s.draws := rfl
@[simp] theorem State.memByte_setReg (s : State) (r : Slot) (v : Word) (a : Nat) :
    (s.setReg r v).memByte a = s.memByte a := rfl

/-! ### setPc -/

@[simp] theorem State.pc_setPc (s : State) (v : Word) : (s.setPc v).pc = v := by
  simp [State.pc, State.setPc]

theorem State.reg_setPc (s : State) (v : Word) (q : Slot) :
    (s.setPc v).reg q = if q = ipSlot then v else s.reg q :=
  State.reg_setReg s ipSlot q v

@[simp] theorem State.reg_setPc_ne (s : State) (v : Word) (q : Slot) (h : q ≠ ipSlot) :
    (s.setPc v).reg q = s.reg q := by
  simp [State.reg_setPc, h]

@[simp] theorem State.flags_setPc (s : State) (v : Word) : (s.setPc v).flags = s.flags := rfl
@[simp] theorem State.mem_setPc (s : State) (v : Word) : (s.setPc v).mem = s.mem := rfl
@[simp] theorem State.status_setPc (s : State) (v : Word) : (s.setPc v).status = s.status := rfl
@[simp] theorem State.program_setPc (s : State) (v : Word) : (s.setPc v).program = s.program := rfl
@[simp] theorem State.params_setPc (s : State) (v : Word) : (s.setPc v).params = s.params := rfl
@[simp] theorem State.draws_setPc (s : State) (v : Word) : (s.setPc v).draws = s.draws := rfl
@[simp] theorem State.memByte_setPc (s : State) (v : Word) (a : Nat) :
    (s.setPc v).memByte a = s.memByte a := rfl

/-! ### setHalf -/

theorem State.reg_setHalf (s : State) (r q : Slot) (h : Half) (b : Byte) :
    (s.setHalf r h b).reg q = if q = r then withHalf h b (s.reg r) else s.reg q :=
  State.reg_setReg s r q _

@[simp] theorem State.flags_setHalf (s : State) (r : Slot) (h : Half) (b : Byte) :
    (s.setHalf r h b).flags = s.flags := rfl
@[simp] theorem State.mem_setHalf (s : State) (r : Slot) (h : Half) (b : Byte) :
    (s.setHalf r h b).mem = s.mem := rfl
@[simp] theorem State.status_setHalf (s : State) (r : Slot) (h : Half) (b : Byte) :
    (s.setHalf r h b).status = s.status := rfl
@[simp] theorem State.program_setHalf (s : State) (r : Slot) (h : Half) (b : Byte) :
    (s.setHalf r h b).program = s.program := rfl
@[simp] theorem State.params_setHalf (s : State) (r : Slot) (h : Half) (b : Byte) :
    (s.setHalf r h b).params = s.params := rfl
@[simp] theorem State.draws_setHalf (s : State) (r : Slot) (h : Half) (b : Byte) :
    (s.setHalf r h b).draws = s.draws := rfl
@[simp] theorem State.memByte_setHalf (s : State) (r : Slot) (h : Half) (b : Byte) (a : Nat) :
    (s.setHalf r h b).memByte a = s.memByte a := rfl

/-! ### setFlags and writeFlags -/

@[simp] theorem State.reg_setFlags (s : State) (f : Word) (r : Slot) : (s.setFlags f).reg r = s.reg r := rfl
@[simp] theorem State.pc_setFlags (s : State) (f : Word) : (s.setFlags f).pc = s.pc := rfl
@[simp] theorem State.flags_setFlags (s : State) (f : Word) : (s.setFlags f).flags = f := rfl
@[simp] theorem State.mem_setFlags (s : State) (f : Word) : (s.setFlags f).mem = s.mem := rfl
@[simp] theorem State.status_setFlags (s : State) (f : Word) : (s.setFlags f).status = s.status := rfl
@[simp] theorem State.program_setFlags (s : State) (f : Word) : (s.setFlags f).program = s.program := rfl
@[simp] theorem State.params_setFlags (s : State) (f : Word) : (s.setFlags f).params = s.params := rfl
@[simp] theorem State.draws_setFlags (s : State) (f : Word) : (s.setFlags f).draws = s.draws := rfl
@[simp] theorem State.memByte_setFlags (s : State) (f : Word) (a : Nat) :
    (s.setFlags f).memByte a = s.memByte a := rfl

@[simp] theorem State.reg_writeFlags {w : Nat} (s : State) (x : AluResult w) (r : Slot) :
    (s.writeFlags x).reg r = s.reg r := rfl
@[simp] theorem State.pc_writeFlags {w : Nat} (s : State) (x : AluResult w) : (s.writeFlags x).pc = s.pc := rfl
@[simp] theorem State.flags_writeFlags {w : Nat} (s : State) (x : AluResult w) :
    (s.writeFlags x).flags = mergeFlags s.flags x := rfl
@[simp] theorem State.mem_writeFlags {w : Nat} (s : State) (x : AluResult w) : (s.writeFlags x).mem = s.mem := rfl
@[simp] theorem State.status_writeFlags {w : Nat} (s : State) (x : AluResult w) :
    (s.writeFlags x).status = s.status := rfl
@[simp] theorem State.program_writeFlags {w : Nat} (s : State) (x : AluResult w) :
    (s.writeFlags x).program = s.program := rfl
@[simp] theorem State.params_writeFlags {w : Nat} (s : State) (x : AluResult w) :
    (s.writeFlags x).params = s.params := rfl
@[simp] theorem State.draws_writeFlags {w : Nat} (s : State) (x : AluResult w) :
    (s.writeFlags x).draws = s.draws := rfl
@[simp] theorem State.memByte_writeFlags {w : Nat} (s : State) (x : AluResult w) (a : Nat) :
    (s.writeFlags x).memByte a = s.memByte a := rfl

/-! ### setMemByte and setMemWord -/

@[simp] theorem State.reg_setMemByte (s : State) (a : Nat) (b : Byte) (r : Slot) :
    (s.setMemByte a b).reg r = s.reg r := rfl
@[simp] theorem State.pc_setMemByte (s : State) (a : Nat) (b : Byte) : (s.setMemByte a b).pc = s.pc := rfl
@[simp] theorem State.flags_setMemByte (s : State) (a : Nat) (b : Byte) :
    (s.setMemByte a b).flags = s.flags := rfl
@[simp] theorem State.mem_setMemByte (s : State) (a : Nat) (b : Byte) :
    (s.setMemByte a b).mem = Memory.write s.mem a b := rfl
@[simp] theorem State.status_setMemByte (s : State) (a : Nat) (b : Byte) :
    (s.setMemByte a b).status = s.status := rfl
@[simp] theorem State.program_setMemByte (s : State) (a : Nat) (b : Byte) :
    (s.setMemByte a b).program = s.program := rfl
@[simp] theorem State.params_setMemByte (s : State) (a : Nat) (b : Byte) :
    (s.setMemByte a b).params = s.params := rfl
@[simp] theorem State.draws_setMemByte (s : State) (a : Nat) (b : Byte) :
    (s.setMemByte a b).draws = s.draws := rfl

@[simp] theorem State.reg_setMemWord (s : State) (a : Nat) (v : Word) (r : Slot) :
    (s.setMemWord a v).reg r = s.reg r := rfl
@[simp] theorem State.pc_setMemWord (s : State) (a : Nat) (v : Word) : (s.setMemWord a v).pc = s.pc := rfl
@[simp] theorem State.flags_setMemWord (s : State) (a : Nat) (v : Word) :
    (s.setMemWord a v).flags = s.flags := rfl
@[simp] theorem State.mem_setMemWord (s : State) (a : Nat) (v : Word) :
    (s.setMemWord a v).mem = Memory.write (Memory.write s.mem a (loByte v)) (a + 1) (hiByte v) := rfl
@[simp] theorem State.status_setMemWord (s : State) (a : Nat) (v : Word) :
    (s.setMemWord a v).status = s.status := rfl
@[simp] theorem State.program_setMemWord (s : State) (a : Nat) (v : Word) :
    (s.setMemWord a v).program = s.program := rfl
@[simp] theorem State.params_setMemWord (s : State) (a : Nat) (v : Word) :
    (s.setMemWord a v).params = s.params := rfl
@[simp] theorem State.draws_setMemWord (s : State) (a : Nat) (v : Word) :
    (s.setMemWord a v).draws = s.draws := rfl

/-! ### takeFault, placeRecord and launch -/

@[simp] theorem State.status_takeFault (s : State) (f : Fault) : (s.takeFault f).status = .faulted f := rfl
@[simp] theorem State.program_takeFault (s : State) (f : Fault) : (s.takeFault f).program = s.program := rfl
@[simp] theorem State.params_takeFault (s : State) (f : Fault) : (s.takeFault f).params = s.params := rfl
@[simp] theorem State.draws_takeFault (s : State) (f : Fault) : (s.takeFault f).draws = s.draws + 1 := rfl

@[simp] theorem State.reg_placeRecord (s : State) (i : Record) (r : Slot) :
    (s.placeRecord i).reg r = s.reg r := rfl
@[simp] theorem State.pc_placeRecord (s : State) (i : Record) : (s.placeRecord i).pc = s.pc := rfl
@[simp] theorem State.flags_placeRecord (s : State) (i : Record) : (s.placeRecord i).flags = s.flags := rfl
@[simp] theorem State.mem_placeRecord (s : State) (i : Record) : (s.placeRecord i).mem = s.mem := rfl
@[simp] theorem State.status_placeRecord (s : State) (i : Record) : (s.placeRecord i).status = s.status := rfl
@[simp] theorem State.params_placeRecord (s : State) (i : Record) : (s.placeRecord i).params = s.params := rfl
@[simp] theorem State.draws_placeRecord (s : State) (i : Record) : (s.placeRecord i).draws = s.draws := rfl

/-- Two states with the same registers, read one by one, and the same other fields are the same state. -/
theorem State.ext_reg {s t : State} (hr : ∀ r, s.reg r = t.reg r) (hf : s.flags = t.flags) (hm : s.mem = t.mem)
    (hs : s.status = t.status) (hp : s.program = t.program) (hc : s.params = t.params)
    (hd : s.draws = t.draws) : s = t := by
  have : s.regs = t.regs := by
    apply Vector.ext
    intro i hi
    exact hr ⟨i, hi⟩
  cases s; cases t; simp_all

end Sys2Proof.Machine
end

