-- ==== Sys2Proof/Laws/Memory.lean ====
section
/-! SUPPORT. Memory and the program map: a read after a write, and the canonical form kept by every operation. -/

namespace Sys2Proof.Machine

/-- A read after a write: the byte written there, every other byte as before. -/
theorem Memory.read_write (m : Memory) (a q : Nat) (v : Byte) :
    Memory.read (Memory.write m a v) q = if q = a then v else Memory.read m q := by
  by_cases hv : v = Memory.blank
  · by_cases hq : q = a <;> simp [Memory.read, Memory.write, hv, cellsGet_drop, hq]
  · by_cases hq : q = a <;> simp [Memory.read, Memory.write, hv, cellsGet_put, hq]

/-- A store inside Memory keeps the canonical form. -/
theorem Memory.wf_write {m : Memory} {size a : Nat} (v : Byte) (h : Memory.wf m size) (ha : a < size) :
    Memory.wf (Memory.write m a v) size := by
  by_cases hv : v = Memory.blank
  · simp only [Memory.write, hv, if_true]
    exact ⟨rising_cellsDrop a h.1, fun c hc => h.2 c (mem_cellsDrop hc)⟩
  · simp only [Memory.write, hv, if_false]
    refine ⟨rising_cellsPut a v h.1, fun c hc => ?_⟩
    rcases mem_cellsPut hc with rfl | hc
    · exact ⟨ha, hv⟩
    · exact h.2 c hc

theorem Memory.wf_nil (size : Nat) : Memory.wf [] size := ⟨List.Pairwise.nil, by simp⟩

theorem Memory.wf_foldl {size : Nat} (cells : List Host.Cell) {m : Memory} (h : Memory.wf m size) :
    Memory.wf (cells.foldl (fun m c => if c.1 < size then Memory.write m c.1 c.2 else m) m) size := by
  induction cells generalizing m with
  | nil => exact h
  | cons c rest ih =>
    apply ih
    by_cases hc : c.1 < size
    · simpa [hc] using Memory.wf_write c.2 h hc
    · simpa [hc] using h

/-- Memory built from any list of bytes is in canonical form. -/
theorem Memory.wf_ofCells (size : Nat) (cells : List Host.Cell) : Memory.wf (Memory.ofCells size cells) size :=
  Memory.wf_foldl cells (Memory.wf_nil size)

/-- Bytes listed elsewhere leave an address as it was. -/
theorem Memory.read_foldl {size a : Nat} (cells : List Host.Cell) {m : Memory}
    (h : ∀ c ∈ cells, c.1 ≠ a) :
    Memory.read (cells.foldl (fun m c => if c.1 < size then Memory.write m c.1 c.2 else m) m) a = Memory.read m a := by
  induction cells generalizing m with
  | nil => rfl
  | cons c rest ih =>
    have hc : a ≠ c.1 := (h c List.mem_cons_self).symm
    refine (ih fun d hd => h d (List.mem_cons_of_mem _ hd)).trans ?_
    by_cases hs : c.1 < size <;> simp [hs, Memory.read_write, hc]

/-- In a Memory built from a list of bytes, the last byte listed for an address inside it is the byte there. -/
theorem Memory.read_ofCells {size a : Nat} {v : Byte} (front rest : List Host.Cell) (ha : a < size)
    (h : ∀ c ∈ rest, c.1 ≠ a) : Memory.read (Memory.ofCells size (front ++ (a, v) :: rest)) a = v := by
  rw [Memory.ofCells, List.foldl_append, List.foldl_cons, Memory.read_foldl rest h]
  simp [ha, Memory.read_write]

theorem Program.fetch_place (p : Program) (pc q : Word) (i : Record) :
    Program.fetch (Program.place p pc i) q = if q = pc then some i else Program.fetch p q := by
  by_cases h : q = pc
  · subst h; simp [Program.fetch, Program.place, cellsGet_put]
  · have : q.toNat ≠ pc.toNat := fun e => h (BitVec.eq_of_toNat_eq e)
    simp [Program.fetch, Program.place, cellsGet_put, h, this]

/-- Placing a record that exists keeps the program's canonical form. -/
theorem Program.wf_place {p : Program} {immBits : Nat} (pc : Word) {i : Record} (h : Program.wf p immBits)
    (hi : i.wf immBits = true) : Program.wf (Program.place p pc i) immBits := by
  refine ⟨rising_cellsPut _ _ h.1, fun c hc => ?_⟩
  rcases mem_cellsPut hc with rfl | hc
  · exact ⟨pc.isLt, hi⟩
  · exact h.2 c hc

theorem Program.wf_foldl {immBits : Nat} (l : List (Word × Record)) {p : Program} (h : Program.wf p immBits) :
    Program.wf (l.foldl (fun p c => if c.2.wf immBits then Program.place p c.1 c.2 else p) p) immBits := by
  induction l generalizing p with
  | nil => exact h
  | cons c rest ih =>
    apply ih
    by_cases hc : c.2.wf immBits = true
    · simpa [hc] using Program.wf_place c.1 h hc
    · simpa [hc] using h

/-- A program built from any list of records is in canonical form. -/
theorem Program.wf_ofList (immBits : Nat) (l : List (Word × Record)) :
    Program.wf (Program.ofList immBits l) immBits :=
  Program.wf_foldl l ⟨List.Pairwise.nil, by simp⟩

/-- Records listed elsewhere, or that do not exist, leave the record at a pc as it was. -/
theorem Program.fetch_foldl {immBits : Nat} {q : Word} (l : List (Word × Record)) {p : Program}
    (h : ∀ c ∈ l, c.1 = q → c.2.wf immBits = false) :
    Program.fetch (l.foldl (fun p c => if c.2.wf immBits then Program.place p c.1 c.2 else p) p) q =
      Program.fetch p q := by
  induction l generalizing p with
  | nil => rfl
  | cons c rest ih =>
    refine (ih fun d hd => h d (List.mem_cons_of_mem _ hd)).trans ?_
    by_cases hw : c.2.wf immBits = true
    · have hq : q ≠ c.1 := by
        rintro rfl
        simp [h c List.mem_cons_self rfl] at hw
      simp [hw, Program.fetch_place, hq]
    · simp [hw]

/-- In a program built from a list, the last existing record listed for a pc is the record there. -/
theorem Program.fetch_ofList {immBits : Nat} {q : Word} {i : Record} (front rest : List (Word × Record))
    (hi : i.wf immBits = true) (h : ∀ c ∈ rest, c.1 = q → c.2.wf immBits = false) :
    Program.fetch (Program.ofList immBits (front ++ (q, i) :: rest)) q = some i := by
  rw [Program.ofList, List.foldl_append, List.foldl_cons, Program.fetch_foldl rest h]
  simp [hi, Program.fetch_place]

theorem State.memByte_setMemByte (s : State) (a q : Nat) (b : Byte) :
    (s.setMemByte a b).memByte q = if q = a then b else s.memByte q :=
  Memory.read_write s.mem a q b

theorem State.memByte_setMemWord (s : State) (a q : Nat) (v : Word) :
    (s.setMemWord a v).memByte q = if q = a + 1 then hiByte v else if q = a then loByte v else s.memByte q := by
  simp [State.setMemWord, State.memByte_setMemByte]

theorem extract_low_append {m n : Nat} (hi : BitVec m) (lo : BitVec n) : (hi ++ lo).extractLsb' 0 n = lo := by
  simp [BitVec.extractLsb'_append_eq_of_add_le]

theorem extract_high_append {m n : Nat} (hi : BitVec m) (lo : BitVec n) : (hi ++ lo).extractLsb' n m = hi := by
  simp [BitVec.extractLsb'_append_eq_of_le]

@[simp] theorem loByte_joinBytes (hi lo : Byte) : loByte (joinBytes hi lo) = lo := extract_low_append hi lo

@[simp] theorem hiByte_joinBytes (hi lo : Byte) : hiByte (joinBytes hi lo) = hi := extract_high_append hi lo

theorem getLsbD_joinBytes (hi lo : Byte) (i : Nat) :
    (joinBytes hi lo).getLsbD i = if i < 8 then lo.getLsbD i else hi.getLsbD (i - 8) := by
  have h : (joinBytes hi lo).getLsbD i = (hi ++ lo).getLsbD i := rfl
  rw [h, BitVec.getLsbD_append]

/-- A word taken apart and put together. -/
@[simp] theorem joinBytes_hi_lo (v : Word) : joinBytes (hiByte v) (loByte v) = v := by
  apply BitVec.eq_of_getLsbD_eq
  intro i hi
  rw [getLsbD_joinBytes]
  by_cases h : i < 8
  · simp [loByte, h]
  · have e : 8 + (i - 8) = i := by omega
    have l : i - 8 < 8 := by omega
    simp [hiByte, h, e, l]

/-- The half written is the half read. -/
@[simp] theorem halfOf_withHalf_same (h : Half) (b : Byte) (v : Word) : halfOf h (withHalf h b v) = b := by
  cases h <;> simp [halfOf, withHalf]

/-- The other half is as it was (R24). -/
@[simp] theorem halfOf_withHalf_other (h : Half) (b : Byte) (v : Word) :
    halfOf h.other (withHalf h b v) = halfOf h.other v := by
  cases h <;> simp [halfOf, withHalf, Half.other]

end Sys2Proof.Machine
end

