-- ==== Sys2Proof/Laws/Flags.lean ====
section
/-! SUPPORT. The flag write and the ALU: each flag of a merged FLAGS word, the untouched bits, and the ALU's result
and flags in terms of its operands (42_alu.md R132 to R137). -/

namespace Sys2Proof.Machine

theorem flagSet_maskZF (f : Word) : flagSet maskZF f = f.getLsbD 6 := by
  have h : maskZF = BitVec.twoPow 16 6 := by decide
  rw [flagSet, h, BitVec.and_twoPow]
  cases f.getLsbD 6 <;> decide

theorem flagSet_maskPF (f : Word) : flagSet maskPF f = f.getLsbD 2 := by
  have h : maskPF = BitVec.twoPow 16 2 := by decide
  rw [flagSet, h, BitVec.and_twoPow]
  cases f.getLsbD 2 <;> decide

theorem flagSet_maskOF (f : Word) : flagSet maskOF f = f.getLsbD 11 := by
  have h : maskOF = BitVec.twoPow 16 11 := by decide
  rw [flagSet, h, BitVec.and_twoPow]
  cases f.getLsbD 11 <;> decide

theorem getLsbD_flagBit (mask : Word) (b : Bool) (n : Nat) :
    (flagBit mask b).getLsbD n = (b && mask.getLsbD n) := by
  cases b <;> simp [flagBit]

theorem getLsbD_mergeFlags {w : Nat} (f : Word) (x : AluResult w) (n : Nat) :
    (mergeFlags f x).getLsbD n =
      ((((f.getLsbD n && maskUnnamed.getLsbD n || x.zf && maskZF.getLsbD n) || x.sf && maskSF.getLsbD n)
        || x.pf && maskPF.getLsbD n) || x.of && maskOF.getLsbD n) := by
  simp [mergeFlags, getLsbD_flagBit]

theorem mergeFlags_zf {w : Nat} (f : Word) (x : AluResult w) : (mergeFlags f x).getLsbD 6 = x.zf := by
  rw [getLsbD_mergeFlags]; simp [maskUnnamed, maskZF, maskSF, maskPF, maskOF]

theorem mergeFlags_sf {w : Nat} (f : Word) (x : AluResult w) : (mergeFlags f x).getLsbD 7 = x.sf := by
  rw [getLsbD_mergeFlags]; simp [maskUnnamed, maskZF, maskSF, maskPF, maskOF]

theorem mergeFlags_pf {w : Nat} (f : Word) (x : AluResult w) : (mergeFlags f x).getLsbD 2 = x.pf := by
  rw [getLsbD_mergeFlags]; simp [maskUnnamed, maskZF, maskSF, maskPF, maskOF]

theorem mergeFlags_of {w : Nat} (f : Word) (x : AluResult w) : (mergeFlags f x).getLsbD 11 = x.of := by
  rw [getLsbD_mergeFlags]; simp [maskUnnamed, maskZF, maskSF, maskPF, maskOF]

/-- The bits without a meaning are kept (R137). -/
theorem mergeFlags_unnamed {w : Nat} (f : Word) (x : AluResult w) {n : Nat} (h : unnamedBit n) :
    (mergeFlags f x).getLsbD n = f.getLsbD n := by
  obtain ⟨h2, h6, h7, h11⟩ := h
  by_cases hn : n < 16
  · rw [getLsbD_mergeFlags]
    interval_cases n <;> first | omega | simp [maskUnnamed, maskZF, maskSF, maskPF, maskOF]
  · have : 16 ≤ n := by omega
    simp [BitVec.getLsbD_of_ge, this]

/-- Counting 1 bits and taking their exclusive or give the same parity. -/
theorem popcount_even (b : Byte) : (popcount b % 2 == 0) = evenOnes b := by
  have range : List.range 8 = [0, 1, 2, 3, 4, 5, 6, 7] := rfl
  simp only [popcount, evenOnes, range, List.countP_cons, List.countP_nil]
  generalize b.getLsbD 0 = b0
  generalize b.getLsbD 1 = b1
  generalize b.getLsbD 2 = b2
  generalize b.getLsbD 3 = b3
  generalize b.getLsbD 4 = b4
  generalize b.getLsbD 5 = b5
  generalize b.getLsbD 6 = b6
  generalize b.getLsbD 7 = b7
  revert b0 b1 b2 b3 b4 b5 b6 b7
  decide

@[simp] theorem aluAdd_r {w : Nat} (a b : BitVec w) : (aluAdd a b).r = a + b := by
  apply BitVec.eq_of_toNat_eq
  simp [aluAdd, aluOf, BitVec.toNat_ofInt]
  norm_cast

@[simp] theorem aluSub_r {w : Nat} (a b : BitVec w) : (aluSub a b).r = a - b := by
  have h : ((a.toNat : Int) - b.toNat) = (a.toNat : Int) + -(b.toNat : Int) := by omega
  simp [aluSub, aluOf, h, BitVec.ofInt_add, BitVec.ofInt_neg, BitVec.sub_eq_add_neg]

theorem aluAdd_zf {w : Nat} (a b : BitVec w) : (aluAdd a b).zf = decide (a + b = 0#w) := by
  rw [← aluAdd_r]; rfl

/-- ZF after SUB and CMP says that the operands are equal. -/
theorem aluSub_zf {w : Nat} (a b : BitVec w) : (aluSub a b).zf = decide (a = b) := by
  have h : (aluSub a b).zf = decide (a - b = 0#w) := by rw [← aluSub_r]; rfl
  exact h.trans (decide_eq_decide.mpr sub_eq_zero)

/-- The low byte of a word, at either width of the ALU. -/
theorem setWidth_eq_loByte (v : Word) : v.setWidth 8 = loByte v := by
  apply BitVec.eq_of_getLsbD_eq
  intro i hi
  simp [loByte, hi]

theorem aluAdd_sf {w : Nat} (a b : BitVec w) : (aluAdd a b).sf = (a + b).getLsbD (w - 1) := by
  rw [← aluAdd_r]; rfl

theorem aluSub_sf {w : Nat} (a b : BitVec w) : (aluSub a b).sf = (a - b).getLsbD (w - 1) := by
  rw [← aluSub_r]; rfl

theorem aluAdd_pf {w : Nat} (a b : BitVec w) : (aluAdd a b).pf = evenOnes ((a + b).setWidth 8) := by
  rw [← aluAdd_r, ← popcount_even]; rfl

theorem aluSub_pf {w : Nat} (a b : BitVec w) : (aluSub a b).pf = evenOnes ((a - b).setWidth 8) := by
  rw [← aluSub_r, ← popcount_even]; rfl

/-- OF after ADD is the unsigned carry (R136). -/
theorem aluAdd_of {w : Nat} (a b : BitVec w) : (aluAdd a b).of = decide (2 ^ w ≤ a.toNat + b.toNat) := by
  have h : ((a.toNat : Int) + b.toNat > 2 ^ w - 1) ↔ 2 ^ w ≤ a.toNat + b.toNat := by
    constructor
    · intro h
      have : (2 ^ w : Int) ≤ a.toNat + b.toNat := by omega
      exact_mod_cast this
    · intro h
      have : (2 ^ w : Int) ≤ a.toNat + b.toNat := by exact_mod_cast h
      omega
  have n : ¬((a.toNat : Int) + b.toNat < 0) := by omega
  simp only [aluAdd, aluOf, h, n, decide_false, Bool.false_or]

/-- OF after SUB and CMP is the unsigned borrow (R136). -/
theorem aluSub_of {w : Nat} (a b : BitVec w) : (aluSub a b).of = decide (a.toNat < b.toNat) := by
  have ha : (a.toNat : Int) < 2 ^ w := by exact_mod_cast a.isLt
  have n : ¬((a.toNat : Int) - b.toNat > 2 ^ w - 1) := by omega
  have h : ((a.toNat : Int) - b.toNat < 0) ↔ a.toNat < b.toNat := by omega
  simp only [aluSub, aluOf, h, n, decide_false, Bool.or_false]

end Sys2Proof.Machine
end

