-- ==== Sys2Proof/Laws/Ops.lean ====
section
/-! SUPPORT. What the shared operations can do, once each: setting `pc`, the advance, the operand checks, the
resolution of operands, the counter and the displacement. -/

namespace Sys2Proof.Machine

/-! ### Slots and indices -/

@[simp] theorem checkIndex_index (r : Slot) : checkIndex (Slot.index r) = .ok r := by
  have h : 1 ≤ r.val + 1 ∧ r.val + 1 ≤ 13 := by omega
  simp [checkIndex, Slot.index, h]

theorem checkIndex_out {i : Nat} (h : ¬(1 ≤ i ∧ i ≤ 13)) : checkIndex i = .error (.registerIndex i) := by
  simp [checkIndex, h]

/-- An index that passes the check is a slot's index. -/
theorem checkIndex_ok {i : Nat} {r : Slot} (h : checkIndex i = .ok r) : i = Slot.index r := by
  by_cases hi : 1 ≤ i ∧ i ≤ 13
  · simp only [checkIndex, hi, and_self, dif_pos, Except.ok.injEq] at h
    subst h; simp only [Slot.index]; omega
  · simp [checkIndex, hi] at h

theorem counterSlot_ne_ipSlot (p : Params) : counterSlot p ≠ ipSlot := by
  intro h
  have := congrArg Fin.val h
  simp only [counterSlot, ipSlot] at this
  have := p.counterSlot.isLt
  omega

/-! ### Setting pc -/

theorem landPc_fits {t : Int} {s : State} (h : t ≤ 0xFFFF) : landPc t s = .ok (s.setPc (BitVec.ofInt 16 t)) := by
  have : ¬t > 0xFFFF := by omega
  simp [landPc, this]

theorem landPc_wrap {t : Int} {s : State} (h : s.params.ipOverflow = .wrap) :
    landPc t s = .ok (s.setPc (BitVec.ofInt 16 t)) := by
  by_cases ht : t > 0xFFFF <;> simp [landPc, ht, h]

theorem landPc_overflow {t : Int} {s : State} (ht : t > 0xFFFF) (h : s.params.ipOverflow = .fault) :
    landPc t s = .error (.ipOverflow t) := by
  simp [landPc, ht, h]

/-- What setting `pc` can do. -/
theorem landPc_cases (t : Int) (s : State) :
    landPc t s = .ok (s.setPc (BitVec.ofInt 16 t)) ∨
      landPc t s = .error (.ipOverflow t) ∧ t > 0xFFFF ∧ s.params.ipOverflow = .fault := by
  by_cases ht : t > 0xFFFF
  · cases h : s.params.ipOverflow
    · exact .inr ⟨landPc_overflow ht h, ht, rfl⟩
    · exact .inl (landPc_wrap h)
  · exact .inl (landPc_fits (by omega))

/-! ### The advance -/

/-- An advance that raises no fault. -/
theorem advance_ok {len : Nat} {s : State} (h : s.CanAdvance len) : advance len s = .ok (s.advanced len) := by
  have e : BitVec.ofInt 16 ((s.pc.toNat : Int) + len) = s.nextPc len := by
    rw [State.nextPc, ← BitVec.ofInt_natCast]; norm_cast
  rcases h with h | h
  · rw [advance, landPc_fits (by omega), e]; rfl
  · rw [advance, landPc_wrap h, e]; rfl

/-- The advance's only fault. -/
theorem advance_overflow {len : Nat} {s : State} (h : ¬s.CanAdvance len) :
    advance len s = .error (.ipOverflow ((s.pc.toNat : Int) + len)) := by
  simp only [State.CanAdvance, not_or, not_le] at h
  refine landPc_overflow (by omega) ?_
  cases hm : s.params.ipOverflow
  · rfl
  · exact absurd hm h.2

/-- What the advance can do. -/
theorem advance_cases (len : Nat) (s : State) :
    s.CanAdvance len ∧ advance len s = .ok (s.advanced len) ∨
      ¬s.CanAdvance len ∧ advance len s = .error (.ipOverflow ((s.pc.toNat : Int) + len)) := by
  by_cases h : s.CanAdvance len
  · exact .inl ⟨h, advance_ok h⟩
  · exact .inr ⟨h, advance_overflow h⟩

@[simp] theorem State.reg_advanced (len : Nat) (s : State) (r : Slot) : (s.advanced len).reg r = s.regAfter len r :=
  State.reg_setPc s _ r

@[simp] theorem State.pc_advanced (len : Nat) (s : State) : (s.advanced len).pc = s.nextPc len := State.pc_setPc s _

@[simp] theorem State.flags_advanced (len : Nat) (s : State) : (s.advanced len).flags = s.flags := rfl
@[simp] theorem State.mem_advanced (len : Nat) (s : State) : (s.advanced len).mem = s.mem := rfl
@[simp] theorem State.memByte_advanced (len : Nat) (s : State) (a : Nat) :
    (s.advanced len).memByte a = s.memByte a := rfl
@[simp] theorem State.memWord_advanced (len : Nat) (s : State) (a : Nat) :
    (s.advanced len).memWord a = s.memWord a := rfl
@[simp] theorem State.status_advanced (len : Nat) (s : State) : (s.advanced len).status = s.status := rfl
@[simp] theorem State.program_advanced (len : Nat) (s : State) : (s.advanced len).program = s.program := rfl
@[simp] theorem State.params_advanced (len : Nat) (s : State) : (s.advanced len).params = s.params := rfl
@[simp] theorem State.draws_advanced (len : Nat) (s : State) : (s.advanced len).draws = s.draws := rfl

@[simp] theorem State.regAfter_ipSlot (len : Nat) (s : State) : s.regAfter len ipSlot = s.nextPc len := by
  simp [State.regAfter]

theorem State.regAfter_ne (len : Nat) (s : State) {r : Slot} (h : r ≠ ipSlot) : s.regAfter len r = s.reg r := by
  simp [State.regAfter, h]

/-! ### The Address Resolver -/

theorem checkBounds_in {m : Nat} {a : Int} (h : 0 ≤ a ∧ a + 1 ≤ (m : Int) - 1) : checkBounds m a = .ok a.toNat := by
  simp [checkBounds, h]

theorem checkBounds_out {m : Nat} {a : Int} (h : ¬(0 ≤ a ∧ a + 1 ≤ (m : Int) - 1)) :
    checkBounds m a = .error (.memoryBounds a) := by
  rw [checkBounds, if_neg h]

/-- An address that passes the check lies in Memory, and the next one too (R55). -/
theorem checkBounds_ok {m : Nat} {a : Int} {n : Nat} (h : checkBounds m a = .ok n) :
    a = n ∧ n + 1 < m := by
  by_cases ha : 0 ≤ a ∧ a + 1 ≤ (m : Int) - 1
  · rw [checkBounds_in ha] at h
    have : a.toNat = n := by simpa using h
    omega
  · rw [checkBounds_out ha] at h; cases h

/-- The address resolved for an operand with a valid base, or none (R54). -/
theorem ea_memOp (base : Option Slot) (disp : Int) (len : Nat) (s : State) :
    ea (base.map Slot.index) disp (s.advanced len) = checkBounds s.params.memSize (s.addressOf len base disp) := by
  cases base <;> simp [ea, State.addressOf]

/-- A resolved address lies in Memory, and the next one too. -/
theorem ea_ok {base : Option Nat} {disp : Int} {s : State} {a : Nat} (h : ea base disp s = .ok a) :
    a + 1 < s.params.memSize := by
  cases base with
  | none => exact (checkBounds_ok h).2
  | some i =>
    cases hi : checkIndex i with
    | error f => rw [ea, hi] at h; cases h
    | ok r =>
      rw [ea, hi] at h
      exact (checkBounds_ok h).2

/-! ### The shape check -/

/-- The shape check passes exactly the shapes of R81's table. -/
theorem checkShape_ok_iff (op : OpKind) (a b : Operand) :
    checkShape op a b = .ok () ↔ a.kind ∈ (shapeTable op).1 ∧ b.kind ∈ (shapeTable op).2 := by
  cases op <;> cases a <;> cases b <;>
    simp [checkShape, admitsSlot0, admitsSlot1, Operand.kind, shapeTable]

theorem checkShape_ok {op : OpKind} {a b : Operand} (ha : a.kind ∈ (shapeTable op).1)
    (hb : b.kind ∈ (shapeTable op).2) : checkShape op a b = .ok () :=
  (checkShape_ok_iff op a b).mpr ⟨ha, hb⟩

theorem checkShape_slot0 {op : OpKind} {a b : Operand} (ha : a.kind ∉ (shapeTable op).1) :
    checkShape op a b = .error (.illegalOperand op 0 a.kind) := by
  cases op <;> cases a <;> simp_all [checkShape, admitsSlot0, Operand.kind, shapeTable]

theorem checkShape_slot1 {op : OpKind} {a b : Operand} (ha : a.kind ∈ (shapeTable op).1)
    (hb : b.kind ∉ (shapeTable op).2) : checkShape op a b = .error (.illegalOperand op 1 b.kind) := by
  cases op <;> cases a <;> cases b <;>
    simp_all [checkShape, admitsSlot0, admitsSlot1, Operand.kind, shapeTable]

/-! ### Resolution -/

@[simp] theorem resolvePlace_regOp (op : OpKind) (slot : Fin 2) (r : Slot) (h : Half) (s : State) :
    resolvePlace op slot (regOp r h) s = .ok (.reg r h) := by
  simp [resolvePlace, regOp]

@[simp] theorem resolveSource_regOp (op : OpKind) (slot : Fin 2) (r : Slot) (h : Half) (s : State) :
    resolveSource op slot (regOp r h) s = .ok (.place (.reg r h)) := by
  have e := resolvePlace_regOp op slot r h s
  simp only [regOp] at e
  simp [resolveSource, regOp, e]

@[simp] theorem resolveSource_immediate (op : OpKind) (slot : Fin 2) (v : Int) (s : State) :
    resolveSource op slot (.immediate v) s = .ok (.imm v) := rfl

theorem resolvePlace_memory {op : OpKind} {slot : Fin 2} {base : Option Nat} {disp : Int} {s : State} {a : Nat}
    (h : ea base disp s = .ok a) : resolvePlace op slot (.memory base disp) s = .ok (.addr a) := by
  simp [resolvePlace, h]

theorem resolveSource_memory {op : OpKind} {slot : Fin 2} {base : Option Nat} {disp : Int} {s : State} {a : Nat}
    (h : ea base disp s = .ok a) : resolveSource op slot (.memory base disp) s = .ok (.place (.addr a)) := by
  simp [resolveSource, resolvePlace, h]

/-- A resolved address is in bounds. -/
theorem resolvePlace_addr {op : OpKind} {slot : Fin 2} {o : Operand} {s : State} {a : Nat}
    (h : resolvePlace op slot o s = .ok (.addr a)) : a + 1 < s.params.memSize := by
  cases o with
  | none => cases h
  | immediate v => cases h
  | register i hf =>
    cases hi : checkIndex i <;> simp [resolvePlace, hi] at h
  | memory base disp =>
    cases he : ea base disp s with
    | error f => simp [resolvePlace, he] at h
    | ok b =>
      have : b = a := by simpa [resolvePlace, he] using h
      exact this ▸ ea_ok he

/-! ### Preparing an instruction -/

/-- A two-operand instruction whose advance, shape and operands are good. -/
theorem prepareTwo_ok {op : OpKind} {len : Nat} {a b : Operand} {s : State} {p : Place} {src : Source}
    (hadv : s.CanAdvance len) (hshape : checkShape op a b = .ok ())
    (hp : resolvePlace op 0 a (s.advanced len) = .ok p)
    (hs : resolveSource op 1 b (s.advanced len) = .ok src) :
    prepareTwo op len a b s = .ok (s.advanced len, p, src) := by
  simp [prepareTwo, advance_ok hadv, hshape, hp, hs, bind, Except.bind]

/-- What preparing a two-operand instruction can do when it raises no fault. -/
theorem prepareTwo_next {op : OpKind} {len : Nat} {a b : Operand} {s t : State} {p : Place} {src : Source}
    (h : prepareTwo op len a b s = .ok (t, p, src)) :
    t = s.advanced len ∧ s.CanAdvance len ∧ checkShape op a b = .ok () ∧
      resolvePlace op 0 a (s.advanced len) = .ok p ∧ resolveSource op 1 b (s.advanced len) = .ok src := by
  rcases advance_cases len s with ⟨hc, ha⟩ | ⟨_, ha⟩
  · cases hs : checkShape op a b with
    | error f => simp [prepareTwo, ha, hs, bind, Except.bind] at h
    | ok u =>
      cases hp : resolvePlace op 0 a (s.advanced len) with
      | error f => simp [prepareTwo, ha, hs, hp, bind, Except.bind] at h
      | ok q =>
        cases hr : resolveSource op 1 b (s.advanced len) with
        | error f => simp [prepareTwo, ha, hs, hp, hr, bind, Except.bind] at h
        | ok r =>
          simp only [prepareTwo, ha, hs, hp, hr, bind, Except.bind, Except.ok.injEq, Prod.mk.injEq] at h
          obtain ⟨rfl, rfl, rfl⟩ := h
          exact ⟨rfl, hc, rfl, rfl, rfl⟩
  · simp [prepareTwo, ha, bind, Except.bind] at h

/-- A branch whose advance and shape are good. -/
theorem prepareBranch_ok {op : OpKind} {len : Nat} {disp : Int} {s : State} (hadv : s.CanAdvance len)
    (hshape : checkShape op (.immediate disp) .none = .ok ()) :
    prepareBranch op len (.immediate disp) .none s = .ok (s.advanced len, disp) := by
  simp [prepareBranch, advance_ok hadv, hshape, displacement, bind, Except.bind]

/-- What preparing a branch can do when it raises no fault. -/
theorem prepareBranch_next {op : OpKind} {len : Nat} {a b : Operand} {s t : State} {disp : Int}
    (h : prepareBranch op len a b s = .ok (t, disp)) :
    t = s.advanced len ∧ s.CanAdvance len ∧ checkShape op a b = .ok () ∧ a = .immediate disp := by
  rcases advance_cases len s with ⟨hc, ha⟩ | ⟨_, ha⟩
  · cases hs : checkShape op a b with
    | error f => simp [prepareBranch, ha, hs, bind, Except.bind] at h
    | ok u =>
      cases a with
      | immediate v =>
        simp only [prepareBranch, ha, hs, displacement, bind, Except.bind, Except.ok.injEq, Prod.mk.injEq] at h
        obtain ⟨rfl, rfl⟩ := h
        exact ⟨rfl, hc, rfl, rfl⟩
      | none => simp [prepareBranch, ha, hs, displacement, bind, Except.bind] at h
      | register i hf => simp [prepareBranch, ha, hs, displacement, bind, Except.bind] at h
      | memory base d => simp [prepareBranch, ha, hs, displacement, bind, Except.bind] at h
  · simp [prepareBranch, ha, bind, Except.bind] at h

/-! ### The Control-Flow Unit -/

/-- What applying a displacement can do (R150). -/
theorem applyDisp_cases (disp : Int) (s : State) :
    applyDisp disp s = .ok (s.setPc (BitVec.ofInt 16 ((s.pc.toNat : Int) + disp))) ∨
      (applyDisp disp s = .error (.branchUnderflow s.pc disp) ∧ (s.pc.toNat : Int) + disp < 0) ∨
      (applyDisp disp s = .error (.ipOverflow ((s.pc.toNat : Int) + disp)) ∧
        (s.pc.toNat : Int) + disp > 0xFFFF ∧ s.params.ipOverflow = .fault) := by
  by_cases h : disp < 0 ∧ -disp > (s.pc.toNat : Int)
  · exact .inr (.inl ⟨by simp [applyDisp, h], by omega⟩)
  · rcases landPc_cases ((s.pc.toNat : Int) + disp) s with e | ⟨e, h1, h2⟩
    · exact .inl (by rw [applyDisp, if_neg h, e])
    · exact .inr (.inr ⟨by rw [applyDisp, if_neg h, e], h1, h2⟩)

theorem applyDisp_underflow {disp : Int} {s : State} (h : (s.pc.toNat : Int) + disp < 0) :
    applyDisp disp s = .error (.branchUnderflow s.pc disp) := by
  rw [applyDisp, if_pos (by omega)]

theorem applyDisp_fits {disp : Int} {s : State} (h0 : 0 ≤ (s.pc.toNat : Int) + disp)
    (h1 : (s.pc.toNat : Int) + disp ≤ 0xFFFF) :
    applyDisp disp s = .ok (s.setPc (BitVec.ofInt 16 ((s.pc.toNat : Int) + disp))) := by
  rw [applyDisp, if_neg (by omega), landPc_fits h1]

theorem applyDisp_wrap {disp : Int} {s : State} (h0 : 0 ≤ (s.pc.toNat : Int) + disp)
    (h1 : s.params.ipOverflow = .wrap) :
    applyDisp disp s = .ok (s.setPc (BitVec.ofInt 16 ((s.pc.toNat : Int) + disp))) := by
  rw [applyDisp, if_neg (by omega), landPc_wrap h1]

theorem applyDisp_overflow {disp : Int} {s : State} (h0 : (s.pc.toNat : Int) + disp > 0xFFFF)
    (h1 : s.params.ipOverflow = .fault) :
    applyDisp disp s = .error (.ipOverflow ((s.pc.toNat : Int) + disp)) := by
  rw [applyDisp, if_neg (by omega), landPc_overflow h0 h1]

/-- What decrementing the counter can do (R160): subtraction wraps, so one expression serves both modes. -/
theorem decrementCounter_cases (s : State) :
    decrementCounter s = .ok (s.setCounter (s.counter - 1#16)) ∨
      decrementCounter s = .error (.counterUnderflow (Slot.index (counterSlot s.params))) ∧ s.counter = 0#16 ∧
        s.params.counterUnderflow = .fault := by
  by_cases h : s.counter = 0#16
  · cases hm : s.params.counterUnderflow
    · exact .inr ⟨by simp [decrementCounter, h, hm], h, rfl⟩
    · refine .inl ?_
      have : (0#16 - 1#16 : Word) = 0xFFFF#16 := by decide
      simp only [decrementCounter, h, hm, if_true, this]
  · exact .inl (by simp [decrementCounter, h])

theorem State.counter_setCounter (s : State) (v : Word) : (s.setCounter v).counter = v :=
  State.reg_setReg_same s _ v

theorem State.pc_setCounter (s : State) (v : Word) : (s.setCounter v).pc = s.pc :=
  State.reg_setReg_ne s _ _ v (counterSlot_ne_ipSlot s.params).symm

theorem State.counter_advanced (len : Nat) (s : State) : (s.advanced len).counter = s.counter :=
  State.reg_setPc_ne s _ _ (counterSlot_ne_ipSlot s.params)

end Sys2Proof.Machine
end

