-- ==== Sys2Proof/Laws/Exec.lean ====
section
/-! SUPPORT. What an instruction does, once per shared operation: the end of a step, what a next state of a move, an
ALU operation, a jump or a loop must be, and the step that good operands give. -/

namespace Sys2Proof.Machine

/-! ### The end of a step -/

@[simp] theorem outcome_ok (s : State) : outcome (.ok s) = .next s := rfl
@[simp] theorem outcome_error (f : Fault) : outcome (.error f) = .fault f := rfl

theorem outcome_next_iff {r : Except Fault State} {t : State} : outcome r = .next t ↔ r = .ok t := by
  cases r <;> simp [outcome]

theorem outcome_fault_iff {r : Except Fault State} {f : Fault} : outcome r = .fault f ↔ r = .error f := by
  cases r <;> simp [outcome]

theorem outcome_ne_refused (r : Except Fault State) (x : Refusal) : outcome r ≠ .refused x := by
  cases r <;> simp [outcome]

/-! ### Good operands -/

theorem moveW_ok {len : Nat} {a b : Operand} {s t : State} {p : Place} {src : Source}
    (h : prepareTwo .mov len a b s = .ok (t, p, src)) : moveW len a b s = .ok (writeW p (readW src t) t) := by
  simp [moveW, h, bind, Except.bind]

theorem moveB_ok {len : Nat} {a b : Operand} {s t : State} {p : Place} {src : Source}
    (h : prepareTwo .mov len a b s = .ok (t, p, src)) : moveB len a b s = .ok (writeB p (readB src t) t) := by
  simp [moveB, h, bind, Except.bind]

theorem arithW_ok {op : OpKind} {alu : Word → Word → AluResult 16} {wb : Bool} {len : Nat} {a b : Operand}
    {s t : State} {p : Place} {src : Source} (h : prepareTwo op len a b s = .ok (t, p, src)) :
    arithW op alu wb len a b s =
      .ok (if wb then writeW p (alu (readPlaceW p t) (readW src t)).r
          (t.writeFlags (alu (readPlaceW p t) (readW src t)))
        else t.writeFlags (alu (readPlaceW p t) (readW src t))) := by
  simp [arithW, h, bind, Except.bind]

theorem arithB_ok {op : OpKind} {alu : Byte → Byte → AluResult 8} {wb : Bool} {len : Nat} {a b : Operand}
    {s t : State} {p : Place} {src : Source} (h : prepareTwo op len a b s = .ok (t, p, src)) :
    arithB op alu wb len a b s =
      .ok (if wb then writeB p (alu (readPlaceB p t) (readB src t)).r
          (t.writeFlags (alu (readPlaceB p t) (readB src t)))
        else t.writeFlags (alu (readPlaceB p t) (readB src t))) := by
  simp [arithB, h, bind, Except.bind]

/-- A source that is a register or an immediate passes the shape check and resolves, and its values are the ones
`RegOrImm` gives. -/
theorem resolveSource_regOrImm (op : OpKind) (src : RegOrImm) (len : Nat) (s : State) :
    ∃ r, resolveSource op 1 src.operand (s.advanced len) = .ok r ∧
      readW r (s.advanced len) = src.word len s ∧ readB r (s.advanced len) = src.byte len s := by
  cases src with
  | reg q k =>
    exact ⟨_, resolveSource_regOp _ _ _ _ _,
      by simp [readW, readPlaceW, RegOrImm.word], by simp [readB, readPlaceB, State.half, RegOrImm.byte]⟩
  | imm v => exact ⟨_, rfl, rfl, rfl⟩

theorem kind_regOrImm (src : RegOrImm) : src.operand.kind = .register ∨ src.operand.kind = .immediate := by
  cases src
  · exact .inl rfl
  · exact .inr rfl

/-- MOV.W into a register from a source that resolves. -/
theorem execMovW_reg {len : Nat} {d : Slot} {h : Half} {b : Operand} {s : State} {src : Source}
    (hc : s.CanAdvance len) (hk : b.kind ≠ .none) (hs : resolveSource .mov 1 b (s.advanced len) = .ok src) :
    execMovW len (regOp d h) b s = .next ((s.advanced len).setReg d (readW src (s.advanced len))) := by
  have hp := prepareTwo_ok hc (by cases b <;> first | rfl | exact absurd rfl hk)
    (resolvePlace_regOp .mov 0 d h (s.advanced len)) hs
  rw [execMovW, moveW_ok hp]; rfl

/-- MOV.B into a register from a source that resolves. -/
theorem execMovB_reg {len : Nat} {d : Slot} {h : Half} {b : Operand} {s : State} {src : Source}
    (hc : s.CanAdvance len) (hk : b.kind ≠ .none) (hs : resolveSource .mov 1 b (s.advanced len) = .ok src) :
    execMovB len (regOp d h) b s = .next ((s.advanced len).setHalf d h (readB src (s.advanced len))) := by
  have hp := prepareTwo_ok hc (by cases b <;> first | rfl | exact absurd rfl hk)
    (resolvePlace_regOp .mov 0 d h (s.advanced len)) hs
  rw [execMovB, moveB_ok hp]; rfl

/-- MOV.W into Memory from a source that resolves. -/
theorem execMovW_mem {len a : Nat} {base : Option Nat} {disp : Int} {b : Operand} {s : State} {src : Source}
    (hc : s.CanAdvance len) (hk : b.kind ≠ .none) (ha : ea base disp (s.advanced len) = .ok a)
    (hs : resolveSource .mov 1 b (s.advanced len) = .ok src) :
    execMovW len (.memory base disp) b s = .next ((s.advanced len).setMemWord a (readW src (s.advanced len))) := by
  have hp := prepareTwo_ok hc (by cases b <;> first | rfl | exact absurd rfl hk)
    (resolvePlace_memory (op := .mov) (slot := 0) ha) hs
  rw [execMovW, moveW_ok hp]; rfl

/-- MOV.B into Memory from a source that resolves. -/
theorem execMovB_mem {len a : Nat} {base : Option Nat} {disp : Int} {b : Operand} {s : State} {src : Source}
    (hc : s.CanAdvance len) (hk : b.kind ≠ .none) (ha : ea base disp (s.advanced len) = .ok a)
    (hs : resolveSource .mov 1 b (s.advanced len) = .ok src) :
    execMovB len (.memory base disp) b s = .next ((s.advanced len).setMemByte a (readB src (s.advanced len))) := by
  have hp := prepareTwo_ok hc (by cases b <;> first | rfl | exact absurd rfl hk)
    (resolvePlace_memory (op := .mov) (slot := 0) ha) hs
  rw [execMovB, moveB_ok hp]; rfl

/-- A word ALU operation on every form R81 admits. -/
theorem arithW_regOrImm {op : OpKind} {alu : Word → Word → AluResult 16} {wb : Bool} {len : Nat} {d : Slot} {h : Half}
    {src : RegOrImm} {s : State} (hop : op.isAlu = true) (hc : s.CanAdvance len) :
    arithW op alu wb len (regOp d h) src.operand s =
      .ok (if wb then ((s.advanced len).writeFlags (alu (s.regAfter len d) (src.word len s))).setReg d
              (alu (s.regAfter len d) (src.word len s)).r
            else (s.advanced len).writeFlags (alu (s.regAfter len d) (src.word len s))) := by
  obtain ⟨r, hr, hw, -⟩ := resolveSource_regOrImm op src len s
  have hk : checkShape op (regOp d h) src.operand = .ok () := by
    cases op <;> cases src <;> first | rfl | cases hop
  rw [arithW_ok (prepareTwo_ok hc hk (resolvePlace_regOp op 0 d h (s.advanced len)) hr), hw]
  simp [readPlaceW, writeW]

/-- A byte ALU operation on every form R81 admits. -/
theorem arithB_regOrImm {op : OpKind} {alu : Byte → Byte → AluResult 8} {wb : Bool} {len : Nat} {d : Slot} {h : Half}
    {src : RegOrImm} {s : State} (hop : op.isAlu = true) (hc : s.CanAdvance len) :
    arithB op alu wb len (regOp d h) src.operand s =
      .ok (if wb then ((s.advanced len).writeFlags (alu (halfOf h (s.regAfter len d)) (src.byte len s))).setHalf d h
              (alu (halfOf h (s.regAfter len d)) (src.byte len s)).r
            else (s.advanced len).writeFlags (alu (halfOf h (s.regAfter len d)) (src.byte len s))) := by
  obtain ⟨r, hr, -, hb⟩ := resolveSource_regOrImm op src len s
  have hk : checkShape op (regOp d h) src.operand = .ok () := by
    cases op <;> cases src <;> first | rfl | cases hop
  rw [arithB_ok (prepareTwo_ok hc hk (resolvePlace_regOp op 0 d h (s.advanced len)) hr), hb]
  simp [readPlaceB, writeB, State.half]

/-! ### What a next state must be -/

/-- A word move that raises no fault. -/
theorem moveW_next {len : Nat} {a b : Operand} {s t : State} (h : moveW len a b s = .ok t) :
    ∃ p src, prepareTwo .mov len a b s = .ok (s.advanced len, p, src) ∧
      t = writeW p (readW src (s.advanced len)) (s.advanced len) := by
  cases hp : prepareTwo .mov len a b s with
  | error f => simp [moveW, hp, bind, Except.bind] at h
  | ok x =>
    obtain ⟨u, p, src⟩ := x
    obtain ⟨rfl, -⟩ := prepareTwo_next hp
    rw [moveW_ok hp] at h
    exact ⟨p, src, rfl, by simpa using h.symm⟩

/-- A byte move that raises no fault. -/
theorem moveB_next {len : Nat} {a b : Operand} {s t : State} (h : moveB len a b s = .ok t) :
    ∃ p src, prepareTwo .mov len a b s = .ok (s.advanced len, p, src) ∧
      t = writeB p (readB src (s.advanced len)) (s.advanced len) := by
  cases hp : prepareTwo .mov len a b s with
  | error f => simp [moveB, hp, bind, Except.bind] at h
  | ok x =>
    obtain ⟨u, p, src⟩ := x
    obtain ⟨rfl, -⟩ := prepareTwo_next hp
    rw [moveB_ok hp] at h
    exact ⟨p, src, rfl, by simpa using h.symm⟩

/-- A word ALU operation that raises no fault: FLAGS written, and the destination register too if there is a
write-back. The destination is a register, since the shape check admits no other. -/
theorem arithW_next {op : OpKind} {alu : Word → Word → AluResult 16} {wb : Bool} {len : Nat} {a b : Operand}
    {s t : State} (hop : op.isAlu = true) (h : arithW op alu wb len a b s = .ok t) :
    ∃ r hf src, prepareTwo op len a b s = .ok (s.advanced len, .reg r hf, src) ∧ a = regOp r hf ∧
      t = (if wb then ((s.advanced len).writeFlags (alu (s.regAfter len r) (readW src (s.advanced len)))).setReg r
              (alu (s.regAfter len r) (readW src (s.advanced len))).r
            else (s.advanced len).writeFlags (alu (s.regAfter len r) (readW src (s.advanced len)))) := by
  cases hp : prepareTwo op len a b s with
  | error f => simp [arithW, hp, bind, Except.bind] at h
  | ok x =>
    obtain ⟨u, p, src⟩ := x
    obtain ⟨rfl, -, hs, hpl, -⟩ := prepareTwo_next hp
    rw [arithW_ok hp] at h
    have hk := ((checkShape_ok_iff _ _ _).mp hs).1
    cases a with
    | register i hf =>
      cases hi : checkIndex i with
      | error f => simp [resolvePlace, hi] at hpl
      | ok r =>
        have e : p = .reg r hf := by simpa [resolvePlace, hi] using hpl.symm
        subst e
        refine ⟨r, hf, src, rfl, by rw [regOp, checkIndex_ok hi], ?_⟩
        simpa [readPlaceW, writeW] using h.symm
    | none => cases hpl
    | immediate v => cases hpl
    | memory base disp => cases op <;> simp [OpKind.isAlu, Operand.kind, shapeTable] at hop hk

/-- A byte ALU operation that raises no fault. -/
theorem arithB_next {op : OpKind} {alu : Byte → Byte → AluResult 8} {wb : Bool} {len : Nat} {a b : Operand}
    {s t : State} (hop : op.isAlu = true) (h : arithB op alu wb len a b s = .ok t) :
    ∃ r hf src, prepareTwo op len a b s = .ok (s.advanced len, .reg r hf, src) ∧ a = regOp r hf ∧
      t = (if wb then ((s.advanced len).writeFlags
                (alu (halfOf hf (s.regAfter len r)) (readB src (s.advanced len)))).setHalf r hf
              (alu (halfOf hf (s.regAfter len r)) (readB src (s.advanced len))).r
            else (s.advanced len).writeFlags
              (alu (halfOf hf (s.regAfter len r)) (readB src (s.advanced len)))) := by
  cases hp : prepareTwo op len a b s with
  | error f => simp [arithB, hp, bind, Except.bind] at h
  | ok x =>
    obtain ⟨u, p, src⟩ := x
    obtain ⟨rfl, -, hs, hpl, -⟩ := prepareTwo_next hp
    rw [arithB_ok hp] at h
    have hk := ((checkShape_ok_iff _ _ _).mp hs).1
    cases a with
    | register i hf =>
      cases hi : checkIndex i with
      | error f => simp [resolvePlace, hi] at hpl
      | ok r =>
        have e : p = .reg r hf := by simpa [resolvePlace, hi] using hpl.symm
        subst e
        refine ⟨r, hf, src, rfl, by rw [regOp, checkIndex_ok hi], ?_⟩
        simpa [readPlaceB, writeB, State.half] using h.symm
    | none => cases hpl
    | immediate v => cases hpl
    | memory base disp => cases op <;> simp [OpKind.isAlu, Operand.kind, shapeTable] at hop hk

/-- A jump that raises no fault: taken or not. -/
theorem condJump_next {op : OpKind} {mask : Word} {pol : Bool} {len : Nat} {a b : Operand} {s t : State}
    (h : condJump op mask pol len a b s = .ok t) :
    s.CanAdvance len ∧ ∃ disp, a = .immediate disp ∧
      (flagSet mask s.flags = pol ∧ applyDisp disp (s.advanced len) = .ok t ∨
        flagSet mask s.flags ≠ pol ∧ t = s.advanced len) := by
  cases hp : prepareBranch op len a b s with
  | error f => simp [condJump, hp, bind, Except.bind] at h
  | ok x =>
    obtain ⟨u, disp⟩ := x
    obtain ⟨rfl, hc, -, ha⟩ := prepareBranch_next hp
    refine ⟨hc, disp, ha, ?_⟩
    by_cases ht : flagSet mask s.flags = pol
    · exact .inl ⟨ht, by simpa [condJump, hp, bind, Except.bind, ht] using h⟩
    · exact .inr ⟨ht, by simpa [condJump, hp, bind, Except.bind, ht] using h.symm⟩

/-- A loop that raises no fault: the counter decremented, then taken or not. -/
theorem loopStep_next {op : OpKind} {zpol : Bool} {len : Nat} {a b : Operand} {s t : State}
    (h : loopStep op zpol len a b s = .ok t) :
    s.CanAdvance len ∧ ∃ disp u, a = .immediate disp ∧ decrementCounter (s.advanced len) = .ok u ∧
      u = (s.advanced len).setCounter (s.counter - 1#16) ∧
      ((u.counter ≠ 0#16 ∧ flagSet maskZF u.flags = zpol) ∧ applyDisp disp u = .ok t ∨
        ¬(u.counter ≠ 0#16 ∧ flagSet maskZF u.flags = zpol) ∧ t = u) := by
  cases hp : prepareBranch op len a b s with
  | error f => simp [loopStep, hp, bind, Except.bind] at h
  | ok x =>
    obtain ⟨v, disp⟩ := x
    obtain ⟨rfl, hc, -, ha⟩ := prepareBranch_next hp
    rcases decrementCounter_cases (s.advanced len) with hd | ⟨hd, -⟩
    · refine ⟨hc, disp, _, ha, hd, by rw [State.counter_advanced], ?_⟩
      simp only [loopStep, hp, hd, bind, Except.bind] at h
      split at h
      · exact .inl ⟨‹_›, h⟩
      · exact .inr ⟨‹_›, by simpa using h.symm⟩
    · simp [loopStep, hp, hd, bind, Except.bind] at h

/-- A taken branch that raises no fault sets `pc` and nothing else. -/
theorem applyDisp_next {disp : Int} {s t : State} (h : applyDisp disp s = .ok t) :
    t = s.setPc (BitVec.ofInt 16 ((s.pc.toNat : Int) + disp)) := by
  rcases applyDisp_cases disp s with e | ⟨e, -⟩ | ⟨e, -⟩ <;> rw [e] at h
  · simpa using h.symm
  · cases h
  · cases h

/-! ### A run of the host -/

/-- The last step of a run, taken apart. -/
theorem hostRun_succ (n : Nat) (s : State) : hostRun (n + 1) s = hostStep (hostRun n s) := by
  induction n generalizing s with
  | zero => rfl
  | succ n ih => exact ih (hostStep s)

end Sys2Proof.Machine
end

