-- ==== Sys2Proof/Laws/Encoding.lean ====
section
/-! SUPPORT. The encoder's fields read back: each field of an encoded word, and each operand. -/

namespace Sys2Proof

/-- The six fields of a word joined as R79 lays them out, each read from its own bits. -/
theorem packed_fields (s1 s0 : BitVec 40) (l : BitVec 8) (z : BitVec 7) (wd : BitVec 1) (op : BitVec 8) :
    (s1 ++ s0 ++ l ++ z ++ wd ++ op).extractLsb' 0 8 = op ∧
    (s1 ++ s0 ++ l ++ z ++ wd ++ op).extractLsb' 8 1 = wd ∧
    (s1 ++ s0 ++ l ++ z ++ wd ++ op).extractLsb' 9 7 = z ∧
    (s1 ++ s0 ++ l ++ z ++ wd ++ op).extractLsb' 16 8 = l ∧
    (s1 ++ s0 ++ l ++ z ++ wd ++ op).extractLsb' 24 40 = s0 ∧
    (s1 ++ s0 ++ l ++ z ++ wd ++ op).extractLsb' 64 40 = s1 := by
  refine ⟨Machine.extract_low_append _ _, ?_, ?_, ?_, ?_, ?_⟩
  · rw [BitVec.extractLsb'_append_eq_of_le (by omega)]
    exact Machine.extract_low_append _ _
  · rw [BitVec.extractLsb'_append_eq_of_le (by omega), BitVec.extractLsb'_append_eq_of_le (by omega)]
    exact Machine.extract_low_append _ _
  · rw [BitVec.extractLsb'_append_eq_of_le (by omega), BitVec.extractLsb'_append_eq_of_le (by omega),
      BitVec.extractLsb'_append_eq_of_le (by omega)]
    exact Machine.extract_low_append _ _
  · rw [BitVec.extractLsb'_append_eq_of_le (by omega), BitVec.extractLsb'_append_eq_of_le (by omega),
      BitVec.extractLsb'_append_eq_of_le (by omega), BitVec.extractLsb'_append_eq_of_le (by omega)]
    exact Machine.extract_low_append _ _
  · rw [BitVec.extractLsb'_append_eq_of_le (by omega), BitVec.extractLsb'_append_eq_of_le (by omega),
      BitVec.extractLsb'_append_eq_of_le (by omega), BitVec.extractLsb'_append_eq_of_le (by omega)]
    exact Machine.extract_high_append _ _

theorem packedOp_encodeRecord (r : Record) : packedOp (encodeRecord r) = r.op := (packed_fields _ _ _ _ _ _).1

theorem packedWide_encodeRecord (r : Record) : packedWide (encodeRecord r) = r.wide := by
  have h := (packed_fields (encodeOperand r.slot1) (encodeOperand r.slot0) (BitVec.ofNat 8 r.len) 0#7
    (BitVec.ofBool r.wide) r.op).2.1
  have h0 := congrArg (fun v : BitVec 1 => v.getLsbD 0) h
  simp only [BitVec.getLsbD_extractLsb', Nat.lt_one_iff, decide_true, Bool.true_and, Nat.add_zero] at h0
  exact h0.trans (by cases r.wide <;> rfl)

theorem packedReserved_encodeRecord (r : Record) : (encodeRecord r).extractLsb' 9 7 = 0#7 :=
  (packed_fields _ _ _ _ _ _).2.2.1

theorem packedLen_encodeRecord {r : Record} (h : r.len < 256) : packedLen (encodeRecord r) = r.len := by
  have e := (packed_fields (encodeOperand r.slot1) (encodeOperand r.slot0) (BitVec.ofNat 8 r.len) 0#7
    (BitVec.ofBool r.wide) r.op).2.2.2.1
  exact (congrArg BitVec.toNat e).trans (by simp; omega)

theorem packedSlot0_encodeRecord (r : Record) : packedSlot0 (encodeRecord r) = encodeOperand r.slot0 :=
  (packed_fields _ _ _ _ _ _).2.2.2.2.1

theorem packedSlot1_encodeRecord (r : Record) : packedSlot1 (encodeRecord r) = encodeOperand r.slot1 :=
  (packed_fields _ _ _ _ _ _).2.2.2.2.2

/-- The five fields of an operand joined as R80 lays them out, each read from its own bits. -/
theorem operand_fields (v : BitVec 32) (ix : BitVec 4) (hb hf : BitVec 1) (k : BitVec 2) :
    (v ++ ix ++ hb ++ hf ++ k).extractLsb' 0 2 = k ∧
    (v ++ ix ++ hb ++ hf ++ k).extractLsb' 2 1 = hf ∧
    (v ++ ix ++ hb ++ hf ++ k).extractLsb' 3 1 = hb ∧
    (v ++ ix ++ hb ++ hf ++ k).extractLsb' 4 4 = ix ∧
    (v ++ ix ++ hb ++ hf ++ k).extractLsb' 8 32 = v := by
  refine ⟨Machine.extract_low_append _ _, ?_, ?_, ?_, ?_⟩
  · rw [BitVec.extractLsb'_append_eq_of_le (by omega)]
    exact Machine.extract_low_append _ _
  · rw [BitVec.extractLsb'_append_eq_of_le (by omega), BitVec.extractLsb'_append_eq_of_le (by omega)]
    exact Machine.extract_low_append _ _
  · rw [BitVec.extractLsb'_append_eq_of_le (by omega), BitVec.extractLsb'_append_eq_of_le (by omega),
      BitVec.extractLsb'_append_eq_of_le (by omega)]
    exact Machine.extract_low_append _ _
  · rw [BitVec.extractLsb'_append_eq_of_le (by omega), BitVec.extractLsb'_append_eq_of_le (by omega),
      BitVec.extractLsb'_append_eq_of_le (by omega)]
    exact Machine.extract_high_append _ _

/-- One bit of a word as the one-bit field at its place. -/
theorem getLsbD_of_extract {n : Nat} {x : BitVec n} {i : Nat} {b : BitVec 1} (h : x.extractLsb' i 1 = b) :
    x.getLsbD i = b.getLsbD 0 := by
  have h0 := congrArg (fun v : BitVec 1 => v.getLsbD 0) h
  simpa only [BitVec.getLsbD_extractLsb', Nat.lt_one_iff, decide_true, Bool.true_and, Nat.add_zero] using h0

/-- A signed value that fits 32 bits comes back from them. -/
theorem toInt_ofInt_of_fits {v : Int} (h : fitsSigned Config.packedImmBits v = true) :
    (BitVec.ofInt 32 v).toInt = v := by
  rw [fitsSigned, Bool.and_eq_true] at h
  have lo : (-(2 ^ 32) : Int) ≤ 2 * v := of_decide_eq_true h.1
  have hi : 2 * v < (2 ^ 32 : Int) := of_decide_eq_true h.2
  rw [BitVec.toInt_ofInt]
  exact Int.bmod_eq_of_le (by omega) (by omega)

/-- What the 32 bits of a value field read as fits them. -/
theorem fitsSigned_toInt (v : BitVec 32) : fitsSigned Config.packedImmBits v.toInt = true := by
  have h1 := BitVec.toInt_lt (x := v)
  have h2 := BitVec.le_toInt (x := v)
  rw [fitsSigned, Bool.and_eq_true]
  refine ⟨decide_eq_true ?_, decide_eq_true ?_⟩ <;> simp only [Config.packedImmBits] <;> omega

/-- An operand the packed field carries comes back from it. -/
theorem decodeOperand_encodeOperand {o : Operand} (h : o.wf = true) : decodeOperand (encodeOperand o) = o := by
  rw [Operand.wf, Bool.and_eq_true] at h
  obtain ⟨hx, hv⟩ := h
  cases o with
  | none => decide
  | register index half =>
    have f := operand_fields 0#32 (BitVec.ofNat 4 index) 0#1 (encodeHalf half) 1#2
    have e : encodeOperand (.register index half) = 0#32 ++ BitVec.ofNat 4 index ++ 0#1 ++ encodeHalf half ++ 1#2 := rfl
    have hi : index < 16 := of_decide_eq_true hx
    have hh := getLsbD_of_extract f.2.1
    rw [e, decodeOperand, f.1]
    simp only [f.2.2.2.1, hh, BitVec.toNat_ofNat]
    cases half <;> simp [encodeHalf, hi]
  | immediate value =>
    have f := operand_fields (BitVec.ofInt 32 value) 0#4 0#1 0#1 2#2
    have e : encodeOperand (.immediate value) = BitVec.ofInt 32 value ++ 0#4 ++ 0#1 ++ 0#1 ++ 2#2 := rfl
    rw [e, decodeOperand, f.1]
    simp only [f.2.2.2.2, toInt_ofInt_of_fits hv]
    rfl
  | memory base disp =>
    cases base with
    | none =>
      have f := operand_fields (BitVec.ofInt 32 disp) 0#4 0#1 0#1 3#2
      have e : encodeOperand (.memory none disp) = BitVec.ofInt 32 disp ++ 0#4 ++ 0#1 ++ 0#1 ++ 3#2 := rfl
      rw [e, decodeOperand, f.1]
      simp only [f.2.2.2.2, getLsbD_of_extract f.2.2.1, toInt_ofInt_of_fits hv]
      rfl
    | some b =>
      have f := operand_fields (BitVec.ofInt 32 disp) (BitVec.ofNat 4 b) 1#1 0#1 3#2
      have e : encodeOperand (.memory (some b) disp) = BitVec.ofInt 32 disp ++ BitVec.ofNat 4 b ++ 1#1 ++ 0#1 ++ 3#2 :=
        rfl
      have hb : b < 16 := of_decide_eq_true hx
      have : b % 2 ^ 4 = b := by omega
      rw [e, decodeOperand, f.1]
      simp only [f.2.2.2.2, f.2.2.2.1, getLsbD_of_extract f.2.2.1, toInt_ofInt_of_fits hv, BitVec.toNat_ofNat, this]
      rfl

theorem ofCode_code (op : OpKind) : OpKind.ofCode op.code = some op := by cases op <;> rfl

/-- An instruction is the one its own fields give. -/
theorem instrOf_fields (i : Instr) : instrOf i.op i.wide i.len i.slot0 i.slot1 = i := by cases i <;> rfl

theorem Instr.wf_eq (i : Instr) : i.wf = fieldsWf i.len i.slot0 i.slot1 := by cases i <;> rfl

theorem instrOf_op (op : OpKind) (wide : Bool) (len : Nat) (a b : Operand) : (instrOf op wide len a b).op = op := by
  cases op <;> cases wide <;> rfl

theorem instrOf_wide (op : OpKind) (wide : Bool) (len : Nat) (a b : Operand) :
    (instrOf op wide len a b).wide = wide := by
  cases op <;> cases wide <;> rfl

theorem instrOf_len (op : OpKind) (wide : Bool) (len : Nat) (a b : Operand) : (instrOf op wide len a b).len = len := by
  cases op <;> cases wide <;> rfl

theorem instrOf_slot0 (op : OpKind) (wide : Bool) (len : Nat) (a b : Operand) :
    (instrOf op wide len a b).slot0 = a := by
  cases op <;> cases wide <;> rfl

theorem instrOf_slot1 (op : OpKind) (wide : Bool) (len : Nat) (a b : Operand) :
    (instrOf op wide len a b).slot1 = b := by
  cases op <;> cases wide <;> rfl

end Sys2Proof
end

