-- ==== Sys2Proof/Laws/PerInstr.lean ====
section
/-! SUPPORT. Statements made for every instruction, one lemma per constructor. -/

/-- The family EncodedHeader: the encoded word of an instruction holds its operation code in bits [7:0], its wide flag
in bit [8], zeros in the reserved bits [15:9] and its operands in their fields (R79). -/
def Sys2Proof.Laws.EncodedHeader.Statement (i : Sys2Proof.Instr) : Prop :=
  (Sys2Proof.encode i).extractLsb' 0 8 = i.op.code ∧ (Sys2Proof.encode i).getLsbD 8 = i.wide ∧
  (Sys2Proof.encode i).extractLsb' 9 7 = 0#7 ∧
  (Sys2Proof.encode i).extractLsb' 24 40 = Sys2Proof.encodeOperand i.slot0 ∧
  (Sys2Proof.encode i).extractLsb' 64 40 = Sys2Proof.encodeOperand i.slot1

namespace Sys2Proof.Laws.EncodedHeader

/-- The statement holds of every instruction. -/
theorem holds (i : Instr) : Statement i :=
  ⟨packedOp_encodeRecord i.record, packedWide_encodeRecord i.record, packedReserved_encodeRecord i.record,
    packedSlot0_encodeRecord i.record, packedSlot1_encodeRecord i.record⟩

theorem movW (len : Nat) (a b : Operand) : Statement (.movW len a b) := holds _
theorem movB (len : Nat) (a b : Operand) : Statement (.movB len a b) := holds _
theorem addW (len : Nat) (a b : Operand) : Statement (.addW len a b) := holds _
theorem addB (len : Nat) (a b : Operand) : Statement (.addB len a b) := holds _
theorem subW (len : Nat) (a b : Operand) : Statement (.subW len a b) := holds _
theorem subB (len : Nat) (a b : Operand) : Statement (.subB len a b) := holds _
theorem cmpW (len : Nat) (a b : Operand) : Statement (.cmpW len a b) := holds _
theorem cmpB (len : Nat) (a b : Operand) : Statement (.cmpB len a b) := holds _
theorem je (wide : Bool) (len : Nat) (a b : Operand) : Statement (.je wide len a b) := holds _
theorem jne (wide : Bool) (len : Nat) (a b : Operand) : Statement (.jne wide len a b) := holds _
theorem jp (wide : Bool) (len : Nat) (a b : Operand) : Statement (.jp wide len a b) := holds _
theorem jnp (wide : Bool) (len : Nat) (a b : Operand) : Statement (.jnp wide len a b) := holds _
theorem jb (wide : Bool) (len : Nat) (a b : Operand) : Statement (.jb wide len a b) := holds _
theorem jnb (wide : Bool) (len : Nat) (a b : Operand) : Statement (.jnb wide len a b) := holds _
theorem loopz (wide : Bool) (len : Nat) (a b : Operand) : Statement (.loopz wide len a b) := holds _
theorem loopnz (wide : Bool) (len : Nat) (a b : Operand) : Statement (.loopnz wide len a b) := holds _

end Sys2Proof.Laws.EncodedHeader
end

