-- ==== Sys2Proof/Tests/Slice0.lean ====
section
/-! SUPPORT. Tests: one step on small states, the expected values being those of 95_test_vectors.md (the vector is
named) or worked out by hand from the rule named, and for every statement of Obligations.lean with hypotheses a
witness that they can be met, at the boundary values of each clause. -/

namespace Sys2Proof.Tests
open Sys2Proof Sys2Proof.Machine

/-- A state that differs from reset as said. -/
def at_ (regs : List (Slot × Word)) (flags : Word := 0#16) (bytes : List Host.Cell := [])
    (p : Params := Params.default) : State :=
  regs.foldl (fun s c => s.setReg c.1 c.2)
    { State.reset with flags := flags, mem := Memory.ofCells p.memSize bytes, params := p }

/-- The defaults with both modes at `wrap`. -/
def wrapping : Params := { Params.default with ipOverflow := .wrap, counterUnderflow := .wrap }

/-- What a test looks at. -/
inductive Seen where
  | ran (regs : List Word) (flags : Word) (bytes : List Byte)
  | faulted (f : Fault)
  | stopped (r : Refusal)
  deriving DecidableEq, Repr

/-- The named registers, FLAGS and the named bytes at the end of a step. -/
def see (slots : List Slot) (addrs : List Nat) : Host.Outcome State Fault Refusal → Seen
  | .next t => .ran (slots.map t.reg) t.flags (addrs.map t.memByte)
  | .fault f => .faulted f
  | .refused r => .stopped r

/-- A register operand by its index. -/
abbrev r (i : Nat) : Operand := .register i .low

/-- The high half of a register. -/
abbrev rh (i : Nat) : Operand := .register i .high

/-- An immediate. -/
abbrev im (v : Int) : Operand := .immediate v

/-! ### Decoding: words written out from R79 and R80 (slot 1, slot 0, len, wide, op) -/

/-- V-ENC-1. -/
theorem test_decode_movW : decode 0x00000003020000000031030101#104 = .ok (.movW 3 (r 3) (im 3)) := by rfl

/-- V-ENC-2. -/
theorem test_decode_movB : decode 0x00000000210000000015020001#104 = .ok (.movB 2 (rh 1) (r 2)) := by rfl

/-- V-ENC-4: a base register and a positive displacement. -/
theorem test_decode_movW_store :
    decode 0x0000000011000000022b030101#104 = .ok (.movW 3 (.memory (some 2) 2) (r 1)) := by rfl

/-- V-ENC-3: no base, and the all-ones immediate. -/
theorem test_decode_movW_absolute :
    decode 0xffffffff02000003e803030101#104 = .ok (.movW 3 (.memory none 1000) (im (-1))) := by rfl

/-- Slot 1 `IMMEDIATE 1` is 0x0000000102, slot 0 `REGISTER 1 LOW` is 0x0000000011. -/
theorem test_decode_addW : decode 0x00000001020000000011030102#104 = .ok (.addW 3 (r 1) (im 1)) := by rfl

/-- V-ENC-6: it decodes, although executing it faults. -/
theorem test_decode_addB :
    decode 0xfffffffe2b0000000011030002#104 = .ok (.addB 3 (r 1) (.memory (some 2) (-2))) := by rfl

theorem test_decode_subW : decode 0x00000005020000000011030103#104 = .ok (.subW 3 (r 1) (im 5)) := by rfl

theorem test_decode_subB : decode 0x00000000250000000015020003#104 = .ok (.subB 2 (rh 1) (rh 2)) := by rfl

theorem test_decode_cmpW : decode 0x00000000c10000000031020104#104 = .ok (.cmpW 2 (r 3) (r 12)) := by rfl

theorem test_decode_cmpB : decode 0xffffffff020000000021030004#104 = .ok (.cmpB 3 (r 2) (im (-1))) := by rfl

theorem test_decode_je : decode 0x0000000000fffffffa02020105#104 = .ok (.je true 2 (im (-6)) .none) := by rfl

/-- V-ENC-5. -/
theorem test_decode_jne : decode 0x0000000000fffffff802020106#104 = .ok (.jne true 2 (im (-8)) .none) := by rfl

theorem test_decode_jp : decode 0x00000000000000000502020107#104 = .ok (.jp true 2 (im 5) .none) := by rfl

theorem test_decode_jnp : decode 0x00000000000000000502020108#104 = .ok (.jnp true 2 (im 5) .none) := by rfl

theorem test_decode_jb : decode 0x00000000000000000202020009#104 = .ok (.jb false 2 (im 2) .none) := by rfl

theorem test_decode_jnb : decode 0x0000000000000000030202010a#104 = .ok (.jnb true 2 (im 3) .none) := by rfl

theorem test_decode_loopz : decode 0x0000000000fffffff80202010b#104 = .ok (.loopz true 2 (im (-8)) .none) := by rfl

theorem test_decode_loopnz : decode 0x0000000000fffffffc0202010c#104 = .ok (.loopnz true 2 (im (-4)) .none) := by rfl

/-- R72: 0x00 and 0x0D to 0xFF are no operation kind of the core. -/
theorem test_decode_rejects :
    decode 0x00#104 = .error (.unimplemented 0x00#8) ∧ decode 0x0D#104 = .error (.unimplemented 0x0D#8) ∧
    decode 0xFF#104 = .error (.unimplemented 0xFF#8) := ⟨rfl, rfl, rfl⟩

/-- The encoder writes V-ENC-1, V-ENC-4 and V-ENC-6. -/
theorem test_encode :
    encode (.movW 3 (r 3) (im 3)) = 0x00000003020000000031030101#104 ∧
    encode (.movW 3 (.memory (some 2) 2) (r 1)) = 0x0000000011000000022b030101#104 ∧
    encode (.addB 3 (r 1) (.memory (some 2) (-2))) = 0xfffffffe2b0000000011030002#104 := by decide

/-- Rows of the opcode table, with every bit the table leaves open 0. -/
theorem test_decodeTableWord :
    decodeTableWord 104 0x101 = some (.movW 0 .none .none) ∧ decodeTableWord 104 0x001 = some (.movB 0 .none .none) ∧
    decodeTableWord 104 0x00C = some (.loopnz false 0 .none .none) ∧ decodeTableWord 104 0x00D = none := by decide

/-! ### WellFormed: an ill-formed term for each check, refused -/

theorem test_wf_good : (Instr.movW 255 (.memory (some 15) (-2147483648)) (im 2147483647)).wf = true := by decide

theorem test_wf_length : (Instr.movW 256 (r 1) (r 2)).wf = false := by decide

theorem test_wf_slot0_register : (Instr.addW 2 (r 16) (r 2)).wf = false := by decide

theorem test_wf_slot1_register : (Instr.addB 2 (r 1) (r 16)).wf = false := by decide

theorem test_wf_immediate_above : (Instr.subW 2 (r 1) (im 2147483648)).wf = false := by decide

theorem test_wf_immediate_below : (Instr.je true 2 (im (-2147483649)) .none).wf = false := by decide

theorem test_wf_base : (Instr.movB 2 (.memory (some 16) 0) (r 1)).wf = false := by decide

theorem test_wf_displacement : (Instr.movB 2 (.memory (some 1) 2147483648) (r 1)).wf = false := by decide

theorem test_wf_displacement_absolute : (Instr.movW 2 (r 1) (.memory none (-2147483649))).wf = false := by decide

/-! ### Records and IMM_BITS (R75, R77): both ends of the range, at two values of the parameter -/

theorem test_record_range :
    Record.wf 8 ⟨0x01#8, true, 255, r 99, im 127⟩ = true ∧ Record.wf 8 ⟨0x01#8, true, 3, r 1, im 128⟩ = false ∧
    Record.wf 8 ⟨0x01#8, true, 3, .memory none (-128), .none⟩ = true ∧
    Record.wf 8 ⟨0x01#8, true, 3, .memory (some 1) (-129), .none⟩ = false ∧
    Record.wf 32 ⟨0x05#8, true, 256, .none, .none⟩ = false ∧
    Record.wf 32 ⟨0x05#8, true, 2, im 2147483647, .none⟩ = true ∧
    Record.wf 32 ⟨0x05#8, true, 2, im 2147483648, .none⟩ = false := by decide

/-- A step runs a record the packed port cannot carry: V-FLT-12's REGISTER 99 in slot 1, an immediate of 34 bits
taken mod 2^16 (R76), and a displacement of 34 bits, which lands outside the range (R150). -/
theorem test_step_record :
    see [] [] (step (State.reset.placeRecord ⟨0x02#8, true, 3, r 1, r 99⟩)) = .faulted (.registerIndex 99) ∧
    see [0] [] (step ((at_ [] 0#16 [] { Params.default with immBits := 34 }).placeRecord
      ⟨0x01#8, true, 3, r 1, im 0x1FFFF0007⟩)) = .ran [7#16] 0#16 [] ∧
    see [] [] (step ((at_ [] 0#16 [] { Params.default with immBits := 34 }).placeRecord
      ⟨0x06#8, true, 2, im 0x1FFFF0007, .none⟩)) = .faulted (.ipOverflow 0x1FFFF0009) := by decide

/-! ### One step: MOV -/

/-- V-MOV-6: a word store, the low byte at the lower address. -/
theorem test_movW_store :
    see [0, 12] [1002, 1003] (exec (.movW 3 (.memory (some 2) 2) (r 1)) (at_ [(0, 0x1234#16), (1, 1000#16)])) =
      .ran [0x1234#16, 3#16] 0#16 [0x34#8, 0x12#8] := by decide

/-- V-MOV-11: a write to index 13 overrides the advance. -/
theorem test_movW_ip : see [12] [] (exec (.movW 3 (r 13) (im 0x40)) (at_ [])) = .ran [0x40#16] 0#16 [] := by decide

/-- V-MOV-5: halves of both operands. -/
theorem test_movB_halves :
    see [0, 1] [] (exec (.movB 2 (r 1) (rh 2)) (at_ [(0, 0x1234#16), (1, 0xCDEF#16)])) =
      .ran [0x12CD#16, 0xCDEF#16] 0#16 [] := by decide

/-- V-MOV-9: a one-byte store. -/
theorem test_movB_store :
    see [] [2000, 2001, 2002] (exec (.movB 3 (.memory none 2001) (im 0x77)) (at_ [] 0#16 [(2000, 0x99#8)])) =
      .ran [] 0#16 [0x99#8, 0x77#8, 0x00#8] := by decide

/-! ### One step: ADD, SUB and CMP -/

/-- V-ALU-W2: carry out, and a zero result. -/
theorem test_addW_carry :
    see [0] [] (exec (.addW 2 (r 1) (r 2)) (at_ [(0, 0xFFFF#16), (1, 1#16)])) = .ran [0#16] 0x0844#16 [] := by decide

/-- V-ALU-W20: every unnamed bit kept, the four flags cleared. -/
theorem test_addW_keeps_unnamed :
    see [0] [] (exec (.addW 3 (r 1) (im 1)) (at_ [(0, 1#16)] 0xF73B#16)) = .ran [2#16] 0xF73B#16 [] := by decide

/-- V-ALU-B11: the carry does not reach the high half. -/
theorem test_addB_carry :
    see [0] [] (exec (.addB 3 (r 1) (im 1)) (at_ [(0, 0x00FF#16)])) = .ran [0#16] 0x0844#16 [] := by decide

/-- V-ALU-B1 on a high half: ZF tests the truncated result. -/
theorem test_addB_zero :
    see [0] [] (exec (.addB 2 (rh 1) (rh 1)) (at_ [(0, 0x8077#16)])) = .ran [0x0077#16] 0x0844#16 [] := by decide

/-- V-ALU-W11: borrow. -/
theorem test_subW_borrow :
    see [0] [] (exec (.subW 2 (r 1) (r 2)) (at_ [(0, 3#16), (1, 5#16)])) = .ran [0xFFFE#16] 0x0880#16 [] := by decide

/-- V-ALU-W18: both operands are read before the write. -/
theorem test_subW_self :
    see [0] [] (exec (.subW 2 (r 1) (r 1)) (at_ [(0, 0x1234#16)])) = .ran [0#16] 0x0044#16 [] := by decide

/-- V-ALU-B10. -/
theorem test_subB_halves :
    see [0] [] (exec (.subB 2 (rh 1) (rh 2)) (at_ [(0, 0x01CD#16), (1, 0x0300#16)])) =
      .ran [0xFECD#16] 0x0880#16 [] := by decide

/-- V-ALU-B7: no borrow, odd parity, sign clear. -/
theorem test_subB_flags :
    see [0] [] (exec (.subB 3 (r 1) (im 1)) (at_ [(0, 0x0080#16)] 0x08C4#16)) = .ran [0x007F#16] 0#16 [] := by decide

/-- V-ALU-W15: the destination is unchanged. -/
theorem test_cmpW_below :
    see [0, 1] [] (exec (.cmpW 2 (r 1) (r 2)) (at_ [(0, 2#16), (1, 3#16)])) =
      .ran [2#16, 3#16] 0x0884#16 [] := by decide

/-- V-ALU-W17. -/
theorem test_cmpW_above :
    see [0] [] (exec (.cmpW 3 (r 1) (im 0)) (at_ [(0, 0xFFFF#16)])) = .ran [0xFFFF#16] 0x0084#16 [] := by decide

/-- V-ALU-B8. -/
theorem test_cmpB_below :
    see [0] [] (exec (.cmpB 3 (rh 1) (im 6)) (at_ [(0, 0x0577#16)])) = .ran [0x0577#16] 0x0884#16 [] := by decide

/-- R76: the immediate is taken mod 2^8, so 0x105 is 5; equal operands give ZF and PF. -/
theorem test_cmpB_immediate :
    see [0] [] (exec (.cmpB 3 (rh 1) (im 0x105)) (at_ [(0, 0x0577#16)])) = .ran [0x0577#16] 0x0044#16 [] := by decide

/-! ### One step: jumps and loops -/

/-- V-JCC-1. -/
theorem test_je_taken :
    see [12] [] (exec (.je true 2 (im (-6)) .none) (at_ [(12, 10#16)] 0x0040#16)) = .ran [6#16] 0x0040#16 [] := by decide

/-- V-JCC-18: the test reads only the ZF mask. -/
theorem test_je_mask :
    see [12] [] (exec (.je true 2 (im (-6)) .none) (at_ [(12, 10#16)] 0xFFBF#16)) = .ran [12#16] 0xFFBF#16 [] := by decide

/-- V-JCC-3. -/
theorem test_jne_taken :
    see [12] [] (exec (.jne true 2 (im (-8)) .none) (at_ [(12, 10#16)])) = .ran [4#16] 0#16 [] := by decide

/-- V-JCC-4. -/
theorem test_jne_not_taken :
    see [12] [] (exec (.jne true 2 (im (-8)) .none) (at_ [(12, 10#16)] 0x0040#16)) = .ran [12#16] 0x0040#16 [] := by decide

/-- V-JCC-5. -/
theorem test_jp_taken :
    see [12] [] (exec (.jp true 2 (im 5) .none) (at_ [(12, 18#16)] 0x0004#16)) = .ran [25#16] 0x0004#16 [] := by decide

/-- V-JCC-6. -/
theorem test_jnp_not_taken :
    see [12] [] (exec (.jnp true 2 (im 5) .none) (at_ [(12, 18#16)] 0x0004#16)) = .ran [20#16] 0x0004#16 [] := by decide

/-- V-JCC-7. -/
theorem test_jnp_taken :
    see [12] [] (exec (.jnp true 2 (im 5) .none) (at_ [(12, 18#16)])) = .ran [25#16] 0#16 [] := by decide

/-- V-JCC-8: JB reads OF. -/
theorem test_jb_taken :
    see [12] [] (exec (.jb true 2 (im 2) .none) (at_ [(12, 12#16)] 0x0800#16)) = .ran [16#16] 0x0800#16 [] := by decide

/-- V-JCC-10: bit 0 is not a carry flag here. -/
theorem test_jb_bit_zero :
    see [12] [] (exec (.jb true 2 (im 2) .none) (at_ [(12, 12#16)] 0x0001#16)) = .ran [14#16] 0x0001#16 [] := by decide

/-- V-JCC-11. -/
theorem test_jnb_taken :
    see [12] [] (exec (.jnb true 2 (im 3) .none) (at_ [(12, 14#16)])) = .ran [19#16] 0#16 [] := by decide

/-- V-LOOP-4. -/
theorem test_loopz_taken :
    see [2, 12] [] (exec (.loopz true 2 (im (-8)) .none) (at_ [(2, 3#16), (12, 12#16)] 0x0040#16)) =
      .ran [2#16, 6#16] 0x0040#16 [] := by decide

/-- V-LOOP-6: the counter reaches 0. -/
theorem test_loopz_counter :
    see [2, 12] [] (exec (.loopz true 2 (im (-8)) .none) (at_ [(2, 1#16), (12, 12#16)] 0x0040#16)) =
      .ran [0#16, 14#16] 0x0040#16 [] := by decide

/-- V-LOOP-1. -/
theorem test_loopnz_taken :
    see [2, 12] [] (exec (.loopnz true 2 (im (-4)) .none) (at_ [(2, 2#16), (12, 20#16)])) =
      .ran [1#16, 18#16] 0#16 [] := by decide

/-- V-LOOP-3. -/
theorem test_loopnz_zero_flag :
    see [2, 12] [] (exec (.loopnz true 2 (im (-4)) .none) (at_ [(2, 5#16), (12, 20#16)] 0x0040#16)) =
      .ran [4#16, 22#16] 0x0040#16 [] := by decide

/-! ### Faults and the step -/

/-- V-FLT-13: slot 0's bounds fault comes before slot 1's index fault. -/
theorem test_fault_order :
    see [] [] (exec (.movW 3 (.memory none (-1)) (r 0)) (at_ [])) = .faulted (.memoryBounds (-1)) := by decide

/-- V-FLT-1 and V-FLT-16: the advance comes before the operation kind. -/
theorem test_unimplemented :
    see [] [] (execRecord ⟨0x0D#8, false, 1, .none, .none⟩ (at_ [])) = .faulted (.unimplemented 0x0D#8) ∧
    see [] [] (execRecord ⟨0x0D#8, false, 3, .none, .none⟩ (at_ [(12, 0xFFFE#16)])) =
      .faulted (.ipOverflow 65537) := by decide

/-- The words of V-MOV-1 and V-FLT-4 placed at pc and run from reset; with no program the run has ended (R197). -/
theorem test_step :
    see [0, 12] [] (step (State.reset.withFetchWord 104 0x00000005020000000011030101)) = .ran [5#16, 3#16] 0#16 [] ∧
    see [] [] (step (State.reset.withFetchWord 104 0x00000000000000000011030101)) =
      .faulted (.illegalOperand .mov 1 .none) ∧
    see [] [] (step State.reset) = .stopped (.endOfRun 0#16) := by decide

/-! ### Witnesses: for every statement of Obligations.lean with hypotheses, states and operands that meet them, clause
by clause and where clauses meet. HalfWriteKeepsOtherHalf, MixedWidthMemory, ResetValues, ResetMeetsInvariant,
FaultCodes and DecodeOfSpecWords have none. -/

/-- pc at the last value from which two bytes can be passed. -/
abbrev sHigh : State := at_ [(12, 0xFFFD#16)]

/-- pc one higher. -/
abbrev sTop : State := at_ [(12, 0xFFFE#16)]

/-- The same, both modes at `wrap`. -/
abbrev sTopWrap : State := at_ [(12, 0xFFFE#16)] 0#16 [] wrapping

/-- A state with a program of one word, that of V-MOV-1. -/
abbrev sMov : State := State.reset.withFetchWord 104 0x00000005020000000011030101

/-- A state with a program of one word of no operation kind. -/
abbrev sBad : State := State.reset.withFetchWord 104 0x01000D

/-- A state with Memory bytes at the edges and at 1002. -/
abbrev sMem : State := at_ [(1, 1000#16)] 0#16 [(0, 0x55#8), (1002, 0x34#8), (65533, 0x11#8), (65534, 0x22#8)]

theorem witness_CanAdvance :
    sHigh.CanAdvance 2 ∧ ¬sTop.CanAdvance 2 ∧ ¬sTop.CanAdvance 3 ∧ sTopWrap.CanAdvance 3 ∧ sTop.CanAdvance 0 := by decide

/-- The record of V-MOV-1. -/
abbrev recMov : Record := ⟨0x01#8, true, 3, r 1, im 5⟩

/-- A record of no operation kind. -/
abbrev recBad : Record := ⟨0x0D#8, false, 1, .none, .none⟩

/-- A record whose immediate has 34 bits: it exists at IMM_BITS = 34 and not at 32. -/
abbrev recWide : Record := ⟨0x01#8, true, 3, r 1, im 0x1FFFF0007⟩

/-- Byte 7 listed twice and byte 65535, which is outside Memory; pc 2 listed twice, the second time with a record that
does not exist, and pc 9 with it only. -/
abbrev sLaunched : State :=
  State.launch Params.default (Vector.replicate 13 0#16) 0#16 [(7, 1#8), (65535, 9#8), (7, 2#8), (65534, 3#8)]
    [(2#16, recBad), (2#16, recMov), (2#16, recWide), (9#16, recWide)]

theorem witness_LaunchStateIsCanonical :
    sLaunched.memByte 7 = 2#8 ∧ sLaunched.memByte 65534 = 3#8 ∧ sLaunched.memByte 65535 = 0#8 ∧
    sLaunched.memByte 8 = 0#8 ∧ Program.fetch sLaunched.program 2#16 = some recMov ∧
    Program.fetch sLaunched.program 9#16 = none ∧ Program.fetch sLaunched.program 0#16 = none := by decide

/-- The two hypotheses of a listed byte and of a listed record, on the lists of `sLaunched`. -/
theorem witness_LaunchLists :
    (∀ c ∈ [((65534, 3#8) : Host.Cell)], c.1 ≠ 7) ∧ 7 < Params.default.memSize ∧ ¬65535 < Params.default.memSize ∧
    recMov.wf Params.default.immBits = true ∧
    ∀ c ∈ [(2#16, recWide), (9#16, recWide)], c.1 = 2#16 → c.2.wf Params.default.immBits = false := by decide

theorem witness_StepKeepsInvariant : sMov.Inv ∧ ∃ t, step sMov = .next t := by
  refine ⟨?_, _, rfl⟩
  unfold State.Inv
  decide

theorem witness_RunKeepsInvariant : sMem.Inv := by
  unfold State.Inv
  decide

theorem witness_StepKeepsHostData : ∃ t, step sMov = .next t := ⟨_, rfl⟩

/-- A packed word, and a record wider than any packed word. -/
theorem witness_StepRunsDecodedInstruction :
    sMov.status = .running ∧ sMov.fetch = some (decodeRecord 0x00000005020000000011030101#104) ∧
    decode 0x00000005020000000011030101#104 = .ok (.movW 3 (r 1) (im 5)) ∧
    (State.reset.placeRecord recWide).fetch = some recWide ∧ recWide.instr = .ok (.movW 3 (r 1) (im 0x1FFFF0007)) :=
  ⟨rfl, rfl, rfl, rfl, rfl⟩

/-- Codes 0x00, 0x0D and 0xFF, and not 0x01 or 0x0C; the advance possible in one state and not in the other. -/
theorem witness_UnimplementedKindsFault :
    sBad.status = .running ∧ sBad.fetch = some recBad ∧
    (∀ op ∈ [0x00#8, 0x0D#8, 0xFF#8], op.toNat = 0 ∨ 0x0C < op.toNat) ∧
    (∀ op ∈ [0x01#8, 0x0C#8], ¬(op.toNat = 0 ∨ 0x0C < op.toNat)) ∧
    sBad.CanAdvance recBad.len ∧ ¬sTop.CanAdvance 3 ∧ (sTop.placeRecord recBad).fetch = some recBad :=
  ⟨rfl, rfl, by decide, by decide, by decide, by decide, rfl⟩

theorem witness_EndOfProgramStops : State.reset.status = .running ∧ State.reset.fetch = none := by decide

theorem witness_FaultedRunIsFinal :
    (State.reset.takeFault (.unimplemented 0x0D#8)).status = .faulted (.unimplemented 0x0D#8) := rfl

theorem witness_FaultIsRecorded : sBad.status = .running ∧ step sBad = .fault (.unimplemented 0x0D#8) := ⟨rfl, rfl⟩

theorem witness_RefusalOnlyAtEndOfRun : step State.reset = .refused (.endOfRun 0#16) := rfl

theorem witness_PlacedWordRunsNext :
    State.reset.status = .running ∧ decodeTableWord 104 0x00000005020000000011030101 = some (.movW 3 (r 1) (im 5)) ∧
    (1#16 : Word) ≠ State.reset.pc := ⟨rfl, rfl, by decide⟩

/-- Each clause: a destination that is not index 13, CMP on index 13, a branch taken and not taken. -/
theorem witness_ReturnedPc :
    (∃ t, exec (.addW 2 (r 1) (r 13)) sHigh = .next t) ∧ (∀ h, r 1 ≠ .register 13 h) ∧
    (∃ t, exec (.cmpW 2 (r 13) (r 1)) sHigh = .next t) ∧
    see [12] [] (exec (.je true 2 (im 2) .none) (at_ [] 0x0040#16)) = .ran [4#16] 0x0040#16 [] ∧
    see [12] [] (exec (.je true 2 (im 2) .none) (at_ [])) = .ran [2#16] 0#16 [] ∧
    see [12] [] (exec (.movW 2 (r 13) (im 9)) (at_ [])) = .ran [9#16] 0#16 [] := by
  refine ⟨⟨_, rfl⟩, ?_, ⟨_, rfl⟩, ?_⟩
  · intro h hh
    cases hh
  · decide

/-- V-FLT-14, V-FLT-16, and the same word run in `wrap` mode. -/
theorem witness_AdvanceOverflowComesFirst :
    ¬sTop.CanAdvance (Instr.movW 3 (r 1) (im 1)).len ∧ ¬sTop.CanAdvance (Record.len ⟨0x0D#8, false, 3, .none, .none⟩) ∧
    see [] [] (exec (.movW 3 (r 1) (im 1)) sTop) = .faulted (.ipOverflow 65537) ∧
    see [0, 12] [] (exec (.movW 3 (r 1) (im 1)) sTopWrap) = .ran [1#16, 1#16] 0#16 [] := by decide

/-- V-FLT-3 and V-FLT-6 for slot 0, V-FLT-4 and V-FLT-8 for slot 1. -/
theorem witness_IllegalShapesFault :
    (im 5).kind ∉ (shapeTable .mov).1 ∧ Operand.kind (.memory none 0) ∉ (shapeTable .add).1 ∧
    ((r 1).kind ∈ (shapeTable .mov).1 ∧ Operand.kind .none ∉ (shapeTable .mov).2) ∧
    ((im 1).kind ∈ (shapeTable .je).1 ∧ (im 2).kind ∉ (shapeTable .je).2) ∧ State.reset.CanAdvance 3 := by decide

/-- Indices 1 and 13 against 0 and 14, in slot 0, in slot 1 and as a base. -/
theorem witness_RegisterIndexRange :
    sHigh.CanAdvance 2 ∧ (1 ≤ 1 ∧ 1 ≤ 13) ∧ (1 ≤ 13 ∧ 13 ≤ 13) ∧ ¬(1 ≤ 0 ∧ 0 ≤ 13) ∧ ¬(1 ≤ 14 ∧ 14 ≤ 13) ∧
    sHigh.InMemory (sHigh.addressOf 2 none 65533) ∧ (im 1).kind ≠ .none ∧
    see [] [] (exec (.movW 3 (r 0) (im 1)) (at_ [])) = .faulted (.registerIndex 0) ∧
    see [] [] (exec (.addB 3 (r 14) (im 1)) (at_ [])) = .faulted (.registerIndex 14) ∧
    see [] [] (exec (.cmpW 3 (r 13) (r 14)) (at_ [])) = .faulted (.registerIndex 14) ∧
    see [] [] (exec (.movB 3 (r 1) (.memory (some 15) 0)) (at_ [])) = .faulted (.registerIndex 15) := by decide

/-- V-EA-2, V-EA-3, V-EA-4, V-EA-6 and V-EA-8, and address 0. -/
theorem witness_MemoryBoundsCheck :
    sMem.CanAdvance 3 ∧ sMem.InMemory (sMem.addressOf 3 none 0) ∧ sMem.InMemory (sMem.addressOf 3 none 65533) ∧
    ¬sMem.InMemory (sMem.addressOf 3 none 65534) ∧ ¬sMem.InMemory (sMem.addressOf 3 none (-1)) ∧
    ¬(at_ [(0, 0xFFFF#16)]).InMemory ((at_ [(0, 0xFFFF#16)]).addressOf 3 (some 0) 2) ∧
    see [] [] (exec (.movB 3 (r 1) (.memory none 65534)) sMem) = .faulted (.memoryBounds 65534) ∧
    see [0] [] (exec (.movW 4 (r 1) (.memory none 65533)) sMem) = .ran [0x2211#16] 0#16 [] := by decide

/-- From Memory to Memory: both admitted; the destination admitted and the source just out of bounds. -/
theorem witness_MemoryBoundsCheck_memory :
    sMem.InMemory (sMem.addressOf 4 none 0) ∧ sMem.InMemory (sMem.addressOf 4 (some 1) 2) ∧
    ¬sMem.InMemory (sMem.addressOf 4 none 65534) ∧
    see [] [0, 1] (exec (.movW 4 (memOp none 0) (memOp (some 1) 2)) sMem) = .ran [] 0#16 [0x34#8, 0x00#8] ∧
    see [] [] (exec (.movB 4 (memOp none 0) (memOp none 65534)) sMem) = .faulted (.memoryBounds 65534) := by decide

/-- One instruction for each kind of fault an instruction can raise. -/
theorem witness_FaultsByFamily :
    exec (.addW 3 (r 1) (.memory none 0)) State.reset = .fault (.illegalOperand .add 1 .memory) ∧
    exec (.subB 3 (r 0) (r 99)) State.reset = .fault (.registerIndex 0) ∧
    exec (.movW 3 (.memory none (-1)) (r 0)) State.reset = .fault (.memoryBounds (-1)) ∧
    exec (.jne true 2 (im (-3)) .none) State.reset = .fault (.branchUnderflow 2#16 (-3)) ∧
    exec (.cmpB 3 (r 1) (r 1)) sTop = .fault (.ipOverflow 65537) ∧
    exec (.loopnz true 2 (im (-30)) .none) State.reset = .fault (.counterUnderflow 3) :=
  ⟨rfl, rfl, rfl, rfl, rfl, rfl⟩

theorem witness_DecodeEncode : (Instr.addB 255 (rh 15) (.memory (some 0) (-2147483648))).wf = true := by decide

theorem witness_DecodedIsWellFormed : ∃ i, decode 0x0000000000fffffff802020106#104 = .ok i := ⟨_, rfl⟩

/-- Codes at both ends of the accepted range, and next to them. -/
theorem witness_DecodeReadsHeader :
    (∃ i, decode 0x000001#104 = .ok i) ∧ (∃ i, decode 0x00000C#104 = .ok i) ∧
    ((0x0C#104 : PackedWord).extractLsb' 0 8).toNat = 0x0C ∧ ¬((0x0D#104 : PackedWord).extractLsb' 0 8).toNat ≤ 0x0C :=
  ⟨⟨_, rfl⟩, ⟨_, rfl⟩, by decide, by decide⟩

/-- A bit that R80 ignores for each kind, Memory with and without a base, and bits next to them that it does not. -/
theorem witness_IgnoredBitsHaveNoEffect :
    ignoredBit 0#40 2 ∧ ignoredBit 0#40 39 ∧ ¬ignoredBit 0#40 1 ∧
    ignoredBit 0x11#40 3 ∧ ignoredBit 0x11#40 8 ∧ ¬ignoredBit 0x11#40 2 ∧ ¬ignoredBit 0x11#40 7 ∧
    ignoredBit 0x02#40 2 ∧ ignoredBit 0x02#40 7 ∧ ¬ignoredBit 0x02#40 8 ∧
    ignoredBit 0x1B#40 2 ∧ ¬ignoredBit 0x1B#40 4 ∧ ignoredBit 0x03#40 4 ∧ ignoredBit 0x03#40 7 ∧
    ¬ignoredBit 0x03#40 8 := by
  simp [ignoredBit]

theorem witness_MovWordIntoRegister :
    sMem.CanAdvance 3 ∧ sMem.addressOf 3 (some 1) 2 = (1002 : Nat) ∧ sMem.InMemory (1002 : Nat) ∧
    sMem.addressOf 4 none 65533 = (65533 : Nat) ∧ sMem.InMemory (65533 : Nat) := by decide

theorem witness_MovByteIntoRegister :
    sHigh.CanAdvance 2 ∧ sHigh.addressOf 2 none 0 = (0 : Nat) ∧ sHigh.InMemory (0 : Nat) ∧
    sHigh.regAfter 2 12 = 0xFFFF#16 := by decide

/-- Overlapping source and destination: the source is read first. -/
theorem witness_MovWordIntoMemory :
    sMem.CanAdvance 4 ∧ sMem.addressOf 4 (some 1) 3 = (1003 : Nat) ∧ sMem.InMemory (1003 : Nat) ∧
    sMem.addressOf 4 none 1002 = (1002 : Nat) ∧ sMem.InMemory (1002 : Nat) ∧
    see [] [1002, 1003, 1004] (exec (.movW 4 (.memory (some 2) 3) (.memory none 1002)) sMem) =
      .ran [] 0#16 [0x34#8, 0x34#8, 0x00#8] := by decide

theorem witness_MovByteIntoMemory :
    sMem.CanAdvance 4 ∧ sMem.addressOf 4 none 65533 = (65533 : Nat) ∧ sMem.InMemory (65533 : Nat) ∧
    sMem.addressOf 4 (some 1) 2 = (1002 : Nat) ∧ sMem.InMemory (1002 : Nat) := by decide

theorem witness_MovIgnoresFlags : (Instr.movB 2 (r 1) (r 2)).op = .mov := rfl

/-- For AddWord, AddByte, SubWord, SubByte, CmpWord and CmpByte: a state and operands of each form of the source. -/
theorem witness_AluStatements :
    sHigh.CanAdvance 2 ∧ sTopWrap.CanAdvance 2 ∧
    (RegOrImm.reg 12 .high).byte 2 sHigh = 0xFF#8 ∧ (RegOrImm.imm (-1)).word 2 sHigh = 0xFFFF#16 := by decide

/-- For TruncatedResultIsWritten, SignFlagIsTopBit and ParityFlagCountsLowByte: each instruction reaches a next
state. -/
theorem witness_AluResults :
    (∃ t, exec (.addW 2 (regOp 0 .low) (RegOrImm.imm (-1)).operand) sHigh = .next t) ∧
    (∃ t, exec (.subW 2 (regOp 12 .low) (RegOrImm.reg 3 .low).operand) sHigh = .next t) ∧
    (∃ t, exec (.cmpW 2 (regOp 0 .low) (RegOrImm.imm 1).operand) sHigh = .next t) ∧
    (∃ t, exec (.addB 2 (regOp 0 .high) (RegOrImm.imm 1).operand) sHigh = .next t) ∧
    (∃ t, exec (.subB 2 (regOp 0 .high) (RegOrImm.reg 0 .low).operand) sHigh = .next t) ∧
    (∃ t, exec (.cmpB 2 (regOp 0 .low) (RegOrImm.imm 1).operand) sHigh = .next t) :=
  ⟨⟨_, rfl⟩, ⟨_, rfl⟩, ⟨_, rfl⟩, ⟨_, rfl⟩, ⟨_, rfl⟩, ⟨_, rfl⟩⟩

theorem witness_OnlyAluWritesFlags :
    (∃ t, exec (.movW 3 (r 1) (im 5)) State.reset = .next t) ∧ (Instr.movW 3 (r 1) (im 5)).op.isAlu = false ∧
    (∃ t, exec (.addW 3 (r 1) (im 5)) State.reset = .next t) ∧ unnamedBit 0 ∧ unnamedBit 15 ∧ ¬unnamedBit 11 :=
  ⟨⟨_, rfl⟩, rfl, ⟨_, rfl⟩, by decide, by decide, by decide⟩

/-- A run of two steps that executes one instruction and then ends. -/
theorem witness_UnnamedFlagsAlongARun : (hostRun 2 sMov).status = .running ∧ (hostRun 2 sMov).pc = 3#16 := by decide

/-- Both outcomes of both tests: 1 is below 3, 3 equals 3. -/
theorem witness_BelowAfterCompare :
    sHigh.CanAdvance 2 ∧
    (∃ t u, exec (.cmpW 3 (regOp 0 .low) (RegOrImm.imm 3).operand) (at_ [(0, 1#16)]) = .next t ∧ t.CanAdvance 2 ∧
      exec (.jb true 2 (im 4) .none) t = .next u ∧ u.pc = 9#16) ∧
    (∃ t u, exec (.cmpB 3 (regOp 0 .low) (RegOrImm.imm 3).operand) (at_ [(0, 3#16)]) = .next t ∧ t.CanAdvance 2 ∧
      exec (.jb true 2 (im 4) .none) t = .next u ∧ u.pc = 5#16) ∧
    (∃ t u, exec (.cmpW 3 (regOp 0 .low) (RegOrImm.imm 3).operand) (at_ [(0, 3#16)]) = .next t ∧ t.CanAdvance 2 ∧
      exec (.je true 2 (im 4) .none) t = .next u ∧ u.pc = 9#16) := by
  refine ⟨by decide, ⟨_, _, rfl, ?_, rfl, ?_⟩, ⟨_, _, rfl, ?_, rfl, ?_⟩, ⟨_, _, rfl, ?_, rfl, ?_⟩⟩ <;> decide

/-- For the jumps, where the clauses of `Lands` meet: the sum -1, 0, 0xFFFF and 0x10000, in both modes, and a branch
not taken whose sum would be -1. -/
theorem witness_BranchTargets :
    see [12] [] (exec (.jnb true 2 (im (-13)) .none) (at_ [(12, 10#16)])) = .faulted (.branchUnderflow 12#16 (-13)) ∧
    see [12] [] (exec (.jnb true 2 (im (-12)) .none) (at_ [(12, 10#16)])) = .ran [0#16] 0#16 [] ∧
    see [12] [] (exec (.jnp true 2 (im 0xFFF3) .none) (at_ [(12, 10#16)])) = .ran [0xFFFF#16] 0#16 [] ∧
    see [12] [] (exec (.jnp true 2 (im 0xFFF4) .none) (at_ [(12, 10#16)])) = .faulted (.ipOverflow 0x10000) ∧
    see [12] [] (exec (.jne true 2 (im 0xFFF4) .none) (at_ [(12, 10#16)] 0#16 [] wrapping)) = .ran [0#16] 0#16 [] ∧
    see [12] [] (exec (.je true 2 (im (-13)) .none) (at_ [(12, 10#16)])) = .ran [12#16] 0#16 [] := by decide

/-- For LoopzDecrementsThenBranches and LoopnzDecrementsThenBranches: counters 1 and 2, and 0 in `wrap` mode
(V-LOOP-8). -/
theorem witness_LoopsDecrementThenBranch :
    (at_ [(2, 1#16), (12, 20#16)]).CanAdvance 2 ∧
    (at_ [(2, 1#16)]).reg (counterSlot (at_ [(2, 1#16)]).params) ≠ 0#16 ∧
    (at_ [] 0#16 [] wrapping).params.counterUnderflow = .wrap ∧
    see [2, 12] [] (exec (.loopnz true 2 (im (-4)) .none) (at_ [(2, 1#16), (12, 20#16)])) = .ran [0#16, 22#16] 0#16 [] ∧
    see [2, 12] [] (exec (.loopnz true 2 (im (-4)) .none) (at_ [(12, 20#16)] 0#16 [] wrapping)) =
      .ran [0xFFFF#16, 18#16] 0#16 [] ∧
    see [2, 12] [] (exec (.loopz true 2 (im (-4)) .none) (at_ [(12, 20#16)] 0#16 [] wrapping)) =
      .ran [0xFFFF#16, 22#16] 0#16 [] := by decide

/-- V-LOOP-7. -/
theorem witness_LoopCounterUnderflow :
    (at_ [(12, 20#16)]).CanAdvance 2 ∧ (at_ [(12, 20#16)]).reg (counterSlot (at_ [(12, 20#16)]).params) = 0#16 ∧
    (at_ [(12, 20#16)]).params.counterUnderflow = .fault ∧
    see [] [] (exec (.loopnz true 2 (im (-4)) .none) (at_ [(12, 20#16)])) = .faulted (.counterUnderflow 3) := by decide

/-- One next state for a MOV, an ADD and a CMP, and registers that are neither the destination nor pc. -/
theorem witness_FrameOfRegisterDestination :
    (∃ t, exec (.movB 2 (.register 4 .high) (.memory none 1002)) sMem = .next t) ∧
    (∃ t, exec (.addW 2 (.register 13 .low) (im 1)) sMem = .next t) ∧
    (∃ t, exec (.cmpW 2 (.register 4 .low) (im 1)) sMem = .next t) ∧
    Slot.index 0 ≠ 4 ∧ (0 : Slot) ≠ ipSlot ∧ Instr.op (.cmpW 2 (.register 4 .low) (im 1)) = .cmp :=
  ⟨⟨_, rfl⟩, ⟨_, rfl⟩, ⟨_, rfl⟩, by decide, by decide, rfl⟩

theorem witness_FrameOfMemoryDestination :
    (∃ t, exec (.movW 3 (.memory (some 2) 2) (r 1)) sMem = .next t) ∧
    (∃ t, exec (.movB 3 (.memory none 65533) (im 7)) sMem = .next t) ∧
    ea (some 2) 2 (sMem.advanced 3) = .ok 1002 ∧ ea none 65533 (sMem.advanced 3) = .ok 65533 :=
  ⟨⟨_, rfl⟩, ⟨_, rfl⟩, rfl, rfl⟩

theorem witness_FrameOfBranches :
    (∃ t, exec (.jne true 2 (im 4) .none) sMem = .next t) ∧
    (∃ t, exec (.loopnz false 2 (im 4) .none) (at_ [(2, 2#16)]) = .next t) := ⟨⟨_, rfl⟩, ⟨_, rfl⟩⟩

theorem witness_OnlyMovReachesMemory : (Instr.cmpB 2 (r 1) (r 2)).op ≠ .mov := by decide

/-- Register 4 beside `mov r1, [r2]`; register 3, the counter, beside a loop. -/
theorem witness_UnnamedRegistersAreInert :
    (3 : Slot) ≠ ipSlot ∧ ¬(r 1).names (Slot.index 3) ∧ ¬Operand.names (.memory (some 2) 0) (Slot.index 3) ∧
    ¬(im 4).names (Slot.index 3) ∧ (3 : Slot) ≠ counterSlot State.reset.params ∧
    (2 : Slot) = counterSlot State.reset.params := by
  refine ⟨by decide, ?_, ?_, ?_, by decide, by decide⟩ <;> simp [Operand.names, Slot.index]

/-- A record that both existence and the port admit, and one that exists but whose index the port cannot carry. -/
theorem witness_PackedFormCarriesRecords :
    recMov.packable = true ∧ recBad.packable = true ∧ recMov.wf Params.default.immBits = true ∧
    Record.wf Params.default.immBits ⟨0x02#8, true, 3, r 0, r 99⟩ = true ∧
    Record.packable ⟨0x02#8, true, 3, r 0, r 99⟩ = false ∧ recWide.packable = false := by decide

/-- Both sides of the equivalence, at IMM_BITS = 34 and 33. -/
theorem witness_RecordRange : recWide.wf (33 + 1) = true ∧ recWide.wf (32 + 1) = false := by decide

end Sys2Proof.Tests
end

section
/-! PROOFS. Registers (10_state.md section 2): the two halves of a slot (R24) and the range of an index (R25),
with the way a fault of an operand reaches the end of a two-operand instruction (R113, R173). -/

namespace Sys2Proof.Machine

/-! ### The halves of a slot -/

/-- The half that a half write does not name reads as before (R24). -/
@[simp] theorem State.half_setHalf_other (s : State) (r : Slot) (h : Half) (b : Byte) :
    (s.setHalf r h b).half r h.other = s.half r h.other := by
  simp [State.half, State.reg_setHalf]

/-- Settles O1: the high half is the one a LOW write does not name, the low half the one a HIGH write does not. -/
theorem halfWriteKeepsOtherHalf : Obligations.HalfWriteKeepsOtherHalf := by
  intro s r b
  exact ⟨State.half_setHalf_other s r .low b, State.half_setHalf_other s r .high b⟩

/-! ### The fault of an operand ends the instruction -/

/-- A bad slot 0 is reported whatever slot 1 of an admitted kind holds (R173). -/
theorem prepareTwo_slot0_error {op : OpKind} {len : Nat} {a b : Operand} {s : State} {f : Fault}
    (hadv : s.CanAdvance len) (hshape : checkShape op a b = .ok ())
    (hp : resolvePlace op 0 a (s.advanced len) = .error f) : prepareTwo op len a b s = .error f := by
  simp [prepareTwo, advance_ok hadv, hshape, hp, bind, Except.bind]

/-- A bad slot 1 is reported after a good slot 0 (R173). -/
theorem prepareTwo_slot1_error {op : OpKind} {len : Nat} {a b : Operand} {s : State} {p : Place} {f : Fault}
    (hadv : s.CanAdvance len) (hshape : checkShape op a b = .ok ())
    (hp : resolvePlace op 0 a (s.advanced len) = .ok p)
    (hs : resolveSource op 1 b (s.advanced len) = .error f) : prepareTwo op len a b s = .error f := by
  simp [prepareTwo, advance_ok hadv, hshape, hp, hs, bind, Except.bind]

theorem moveW_error {len : Nat} {a b : Operand} {s : State} {f : Fault}
    (h : prepareTwo .mov len a b s = .error f) : moveW len a b s = .error f := by
  simp [moveW, h, bind, Except.bind]

theorem moveB_error {len : Nat} {a b : Operand} {s : State} {f : Fault}
    (h : prepareTwo .mov len a b s = .error f) : moveB len a b s = .error f := by
  simp [moveB, h, bind, Except.bind]

theorem arithW_error {op : OpKind} {alu : Word → Word → AluResult 16} {wb : Bool} {len : Nat} {a b : Operand}
    {s : State} {f : Fault} (h : prepareTwo op len a b s = .error f) : arithW op alu wb len a b s = .error f := by
  simp [arithW, h, bind, Except.bind]

theorem arithB_error {op : OpKind} {alu : Byte → Byte → AluResult 8} {wb : Bool} {len : Nat} {a b : Operand}
    {s : State} {f : Fault} (h : prepareTwo op len a b s = .error f) : arithB op alu wb len a b s = .error f := by
  simp [arithB, h, bind, Except.bind]

/-- A two-operand instruction ends in the fault its preparation raises. -/
theorem exec_prepareTwo_error {x : Instr} {s : State} {f : Fault} (hx : x.op.isBranch = false)
    (h : prepareTwo x.op x.len x.slot0 x.slot1 s = .error f) : exec x s = .fault f := by
  cases x with
  | movW => exact outcome_fault_iff.mpr (moveW_error h)
  | movB => exact outcome_fault_iff.mpr (moveB_error h)
  | addW | subW | cmpW => exact outcome_fault_iff.mpr (arithW_error h)
  | addB | subB | cmpB => exact outcome_fault_iff.mpr (arithB_error h)
  | je | jne | jp | jnp | jb | jnb | loopz | loopnz => cases hx

/-- A MOV ends in the fault its preparation raises. -/
theorem exec_movForms_error {mk : Nat → Operand → Operand → Instr} {len : Nat} {a b : Operand} {s : State}
    {f : Fault} (hmk : mk ∈ movForms) (h : prepareTwo .mov len a b s = .error f) :
    exec (mk len a b) s = .fault f := by
  simp only [movForms, List.mem_cons, List.not_mem_nil, or_false] at hmk
  obtain rfl | rfl := hmk <;> exact exec_prepareTwo_error rfl h

/-- An ADD, SUB or CMP ends in the fault its preparation raises. -/
theorem exec_aluForms_error {mk : Nat → Operand → Operand → Instr} {len : Nat} {a b : Operand} {s : State}
    {f : Fault} (hmk : mk ∈ aluForms) (h : ∀ op, op.isAlu = true → prepareTwo op len a b s = .error f) :
    exec (mk len a b) s = .fault f := by
  simp only [aluForms, List.mem_cons, List.not_mem_nil, or_false] at hmk
  obtain rfl | rfl | rfl | rfl | rfl | rfl := hmk <;> exact exec_prepareTwo_error rfl (h _ rfl)

/-! ### The shapes of R81's table, by family -/

theorem checkShape_mov {a b : Operand} (ha : a.kind = .register ∨ a.kind = .memory) (hb : b.kind ≠ .none) :
    checkShape .mov a b = .ok () := by
  refine checkShape_ok (by simpa [shapeTable] using ha) ?_
  cases b with
  | none => exact absurd rfl hb
  | register | immediate | memory => simp [shapeTable, Operand.kind]

theorem checkShape_alu {op : OpKind} {a b : Operand} (hop : op.isAlu = true) (ha : a.kind = .register)
    (hb : b.kind = .register ∨ b.kind = .immediate) : checkShape op a b = .ok () := by
  have hk : shapeTable op = ([.register], [.register, .immediate]) := by
    cases op with
    | add | sub | cmp => rfl
    | _ => cases hop
  exact checkShape_ok (by simpa [hk] using ha) (by simpa [hk] using hb)

/-! ### The range of an index -/

/-- An index in range is a slot's index (R25). -/
theorem exists_checkIndex_ok {i : Nat} (h : 1 ≤ i ∧ i ≤ 13) :
    ∃ r : Slot, Slot.index r = i ∧ checkIndex i = .ok r := by
  have hr : checkIndex i = .ok ⟨i - 1, by omega⟩ := by simp [checkIndex, h]
  exact ⟨_, (checkIndex_ok hr).symm, hr⟩

theorem Operand.names_register (i : Nat) (h : Half) : (Operand.register i h).names i := rfl

theorem Operand.names_base (i : Nat) (disp : Int) : (Operand.memory (some i) disp).names i := rfl

/-- An operand that names an index is a register or Memory. -/
theorem Operand.kind_of_names {o : Operand} {i : Nat} (h : o.names i) : o.kind = .register ∨ o.kind = .memory := by
  cases o with
  | none | immediate => exact h.elim
  | register => exact .inl rfl
  | memory => exact .inr rfl

/-- The index of an operand outside [1, 13] is the fault of its resolution, as a register or as a base. -/
theorem resolvePlace_index_out {op : OpKind} {slot : Fin 2} {o : Operand} {i : Nat} (hi : ¬(1 ≤ i ∧ i ≤ 13))
    (ho : o.names i) (s : State) : resolvePlace op slot o s = .error (.registerIndex i) := by
  cases o with
  | none | immediate => exact ho.elim
  | register j h =>
    obtain rfl : j = i := ho
    simp only [resolvePlace, checkIndex_out hi]
  | memory base disp =>
    cases base with
    | none => exact ho.elim
    | some j =>
      obtain rfl : j = i := ho
      simp only [resolvePlace, ea, checkIndex_out hi]

/-- As `resolvePlace_index_out`, for a source. -/
theorem resolveSource_index_out {op : OpKind} {slot : Fin 2} {o : Operand} {i : Nat} (hi : ¬(1 ≤ i ∧ i ≤ 13))
    (ho : o.names i) (s : State) : resolveSource op slot o s = .error (.registerIndex i) := by
  have hp := resolvePlace_index_out (op := op) (slot := slot) hi ho s
  cases o with
  | none | immediate => exact ho.elim
  | register | memory => simp only [resolveSource, hp]

/-- A Memory operand whose address is admitted resolves to it (R54, R55). -/
theorem resolvePlace_memOp {base : Option Slot} {disp : Int} {len : Nat} {s : State} (op : OpKind) (slot : Fin 2)
    (h : s.InMemory (s.addressOf len base disp)) :
    resolvePlace op slot (memOp base disp) (s.advanced len) = .ok (.addr (s.addressOf len base disp).toNat) :=
  resolvePlace_memory ((ea_memOp base disp len s).trans (checkBounds_in h))

section IndexOutOfRange

variable {mk : Nat → Operand → Operand → Instr} {len i : Nat} {a b : Operand} {s : State}

theorem mov_slot0_index_out (hmk : mk ∈ movForms) (hadv : s.CanAdvance len) (hi : ¬(1 ≤ i ∧ i ≤ 13))
    (ha : a.names i) (hb : b.kind ≠ .none) : exec (mk len a b) s = .fault (.registerIndex i) :=
  exec_movForms_error hmk <|
    prepareTwo_slot0_error hadv (checkShape_mov (Operand.kind_of_names ha) hb) (resolvePlace_index_out hi ha _)

theorem mov_slot1_index_out {p : Place} (hmk : mk ∈ movForms) (hadv : s.CanAdvance len)
    (hi : ¬(1 ≤ i ∧ i ≤ 13)) (hk : a.kind = .register ∨ a.kind = .memory)
    (hp : resolvePlace .mov 0 a (s.advanced len) = .ok p) (hb : b.names i) :
    exec (mk len a b) s = .fault (.registerIndex i) := by
  have hbk : b.kind ≠ .none := by obtain h | h := Operand.kind_of_names hb <;> simp [h]
  exact exec_movForms_error hmk <|
    prepareTwo_slot1_error hadv (checkShape_mov hk hbk) hp (resolveSource_index_out hi hb _)

theorem alu_slot0_index_out {h : Half} (hmk : mk ∈ aluForms) (hadv : s.CanAdvance len) (hi : ¬(1 ≤ i ∧ i ≤ 13))
    (hb : b.kind = .register ∨ b.kind = .immediate) :
    exec (mk len (.register i h) b) s = .fault (.registerIndex i) :=
  exec_aluForms_error hmk fun _ hop =>
    prepareTwo_slot0_error hadv (checkShape_alu hop rfl hb) (resolvePlace_index_out hi (Operand.names_register i h) _)

theorem alu_slot1_index_out {d : Slot} {k h : Half} (hmk : mk ∈ aluForms) (hadv : s.CanAdvance len)
    (hi : ¬(1 ≤ i ∧ i ≤ 13)) : exec (mk len (regOp d k) (.register i h)) s = .fault (.registerIndex i) :=
  exec_aluForms_error hmk fun _ hop =>
    prepareTwo_slot1_error hadv (checkShape_alu hop rfl (.inl rfl)) (resolvePlace_regOp _ 0 d k _)
      (resolveSource_index_out hi (Operand.names_register i h) _)

end IndexOutOfRange

/-- Settles O19: an index in range names a slot; any other is the fault of resolving the operand that names it, and
that fault ends the instruction, in slot 0 before slot 1 is resolved, in slot 1 after a slot 0 that resolves. -/
theorem registerIndexRange : Obligations.RegisterIndexRange := by
  intro s len i hadv
  refine ⟨exists_checkIndex_ok, fun hi => ⟨?movSlot0, ?aluSlot0, ?registerSlot1, ?baseSlot1, ?afterMemory⟩⟩
  case movSlot0 =>
    intro mk hmk o ho
    exact ⟨fun h => mov_slot0_index_out hmk hadv hi (Operand.names_register i h) ho,
      fun disp => mov_slot0_index_out hmk hadv hi (Operand.names_base i disp) ho⟩
  case aluSlot0 =>
    intro mk hmk _ o ho
    exact alu_slot0_index_out hmk hadv hi ho
  case registerSlot1 =>
    intro mk hmk d k h
    obtain hmov | halu := List.mem_append.mp hmk
    · exact mov_slot1_index_out hmov hadv hi (.inl rfl) (resolvePlace_regOp .mov 0 d k _)
        (Operand.names_register i h)
    · exact alu_slot1_index_out halu hadv hi
  case baseSlot1 =>
    intro mk hmk d k disp
    exact mov_slot1_index_out hmk hadv hi (.inl rfl) (resolvePlace_regOp .mov 0 d k _) (Operand.names_base i disp)
  case afterMemory =>
    intro mk hmk base disp hmem
    have hp := resolvePlace_memOp .mov 0 hmem
    exact ⟨fun h => mov_slot1_index_out hmk hadv hi (.inr rfl) hp (Operand.names_register i h),
      fun d => mov_slot1_index_out hmk hadv hi (.inr rfl) hp (Operand.names_base i d)⟩

end Sys2Proof.Machine
end

section
/-! PROOFS. Memory (20_memory.md section 2): what the Address Resolver admits (R55), seen at the end of every form of
MOV. -/

namespace Sys2Proof.Machine

/-! ### A Memory operand, resolved -/

section MemoryOperand

variable {base : Option Slot} {disp : Int} {len : Nat} {s : State} (op : OpKind) (slot : Fin 2)

/-- As `resolvePlace_memOp`, for a source. -/
theorem resolveSource_memOp (h : s.InMemory (s.addressOf len base disp)) :
    resolveSource op slot (memOp base disp) (s.advanced len) =
      .ok (.place (.addr (s.addressOf len base disp).toNat)) :=
  resolveSource_memory ((ea_memOp base disp len s).trans (checkBounds_in h))

/-- A Memory operand whose address is not admitted faults with that integer (R54, R55). -/
theorem resolvePlace_memOp_out (h : ¬s.InMemory (s.addressOf len base disp)) :
    resolvePlace op slot (memOp base disp) (s.advanced len) = .error (.memoryBounds (s.addressOf len base disp)) := by
  simp only [memOp, resolvePlace, ea_memOp, checkBounds_out h]

/-- As `resolvePlace_memOp_out`, for a source. -/
theorem resolveSource_memOp_out (h : ¬s.InMemory (s.addressOf len base disp)) :
    resolveSource op slot (memOp base disp) (s.advanced len) = .error (.memoryBounds (s.addressOf len base disp)) := by
  have hp := resolvePlace_memOp_out op slot h
  rw [memOp] at hp ⊢
  simp only [resolveSource, hp]

end MemoryOperand

/-! ### What a MOV makes of its resolved operands -/

section MovForms

variable {mk : Nat → Operand → Operand → Instr} {len : Nat} {a b : Operand} {s : State} {p : Place} {f : Fault}

/-- A MOV of either width completes when its operands are prepared. -/
theorem exec_movForms_completes {t : State} {src : Source} (hmk : mk ∈ movForms)
    (h : prepareTwo .mov len a b s = .ok (t, p, src)) : ∃ u, exec (mk len a b) s = .next u := by
  simp only [movForms, List.mem_cons, List.not_mem_nil, or_false] at hmk
  obtain rfl | rfl := hmk
  · exact ⟨_, outcome_next_iff.mpr (moveW_ok h)⟩
  · exact ⟨_, outcome_next_iff.mpr (moveB_ok h)⟩

theorem mov_completes {src : Source} (hmk : mk ∈ movForms) (hadv : s.CanAdvance len)
    (ha : a.kind = .register ∨ a.kind = .memory) (hb : b.kind ≠ .none)
    (hp : resolvePlace .mov 0 a (s.advanced len) = .ok p)
    (hs : resolveSource .mov 1 b (s.advanced len) = .ok src) : ∃ t, exec (mk len a b) s = .next t :=
  exec_movForms_completes hmk (prepareTwo_ok hadv (checkShape_mov ha hb) hp hs)

theorem mov_slot0_error (hmk : mk ∈ movForms) (hadv : s.CanAdvance len)
    (ha : a.kind = .register ∨ a.kind = .memory) (hb : b.kind ≠ .none)
    (hp : resolvePlace .mov 0 a (s.advanced len) = .error f) : exec (mk len a b) s = .fault f :=
  exec_movForms_error hmk (prepareTwo_slot0_error hadv (checkShape_mov ha hb) hp)

theorem mov_slot1_error (hmk : mk ∈ movForms) (hadv : s.CanAdvance len)
    (ha : a.kind = .register ∨ a.kind = .memory) (hb : b.kind ≠ .none)
    (hp : resolvePlace .mov 0 a (s.advanced len) = .ok p)
    (hs : resolveSource .mov 1 b (s.advanced len) = .error f) : exec (mk len a b) s = .fault f :=
  exec_movForms_error hmk (prepareTwo_slot1_error hadv (checkShape_mov ha hb) hp hs)

end MovForms

/-! ### The bounds check -/

theorem RegOrImm.kind_operand_ne_none (src : RegOrImm) : src.operand.kind ≠ .none := by
  obtain h | h := kind_regOrImm src <;> simp [h]

theorem kind_memOp_ne_none (base : Option Slot) (disp : Int) : (memOp base disp).kind ≠ .none := nofun

/-- Settles O20: a Memory operand resolves exactly when its address is admitted, in slot 0 before slot 1 is resolved;
a MOV whose operands resolve completes, and any other ends in the fault of the first that does not. -/
theorem memoryBoundsCheck : Obligations.MemoryBoundsCheck := by
  intro s len base disp hadv
  constructor
  case left =>
    intro hin mk hmk
    have hdest := resolvePlace_memOp .mov 0 hin
    refine ⟨?load, ?store, ?bothAdmitted, ?sourceOut⟩
    case load =>
      intro d h
      exact mov_completes hmk hadv (.inl rfl) (kind_memOp_ne_none _ _) (resolvePlace_regOp .mov 0 d h _)
        (resolveSource_memOp .mov 1 hin)
    case store =>
      intro src
      obtain ⟨_, hsrc, -⟩ := resolveSource_regOrImm .mov src len s
      exact mov_completes hmk hadv (.inr rfl) src.kind_operand_ne_none hdest hsrc
    case bothAdmitted =>
      intro b c hsrc
      exact mov_completes hmk hadv (.inr rfl) (kind_memOp_ne_none _ _) hdest (resolveSource_memOp .mov 1 hsrc)
    case sourceOut =>
      intro b c hsrc
      exact mov_slot1_error hmk hadv (.inr rfl) (kind_memOp_ne_none _ _) hdest (resolveSource_memOp_out .mov 1 hsrc)
  case right =>
    intro hout mk hmk
    refine ⟨?load, ?store⟩
    case load =>
      intro d h
      exact mov_slot1_error hmk hadv (.inl rfl) (kind_memOp_ne_none _ _) (resolvePlace_regOp .mov 0 d h _)
        (resolveSource_memOp_out .mov 1 hout)
    case store =>
      intro o ho
      exact mov_slot0_error hmk hadv (.inr rfl) ho (resolvePlace_memOp_out .mov 0 hout)

end Sys2Proof.Machine
end

section
/-! PROOFS. The encoding (30_encoding.md): the records that exist at a value of IMM_BITS (R75, R77), and those the
packed word carries (R78 to R80). -/

namespace Sys2Proof

/-! ### The checks, as propositions -/

theorem Operand.wf_iff (o : Operand) :
    o.wf = true ↔ o.indexFits = true ∧ o.inRange Config.packedImmBits = true := by
  rw [Operand.wf, Bool.and_eq_true]

theorem fieldsWf_iff (len : Nat) (a b : Operand) :
    fieldsWf len a b = true ↔ len < 256 ∧ a.wf = true ∧ b.wf = true := by
  rw [fieldsWf, Bool.and_eq_true, Bool.and_eq_true, decide_eq_true_iff, and_assoc]

theorem Record.wf_iff (immBits : Nat) (r : Record) :
    r.wf immBits = true ↔ r.len < 256 ∧ r.slot0.inRange immBits = true ∧ r.slot1.inRange immBits = true := by
  rw [Record.wf, Bool.and_eq_true, Bool.and_eq_true, decide_eq_true_iff, and_assoc]

theorem Record.packable_iff (r : Record) :
    r.packable = true ↔ r.len < 256 ∧ r.slot0.wf = true ∧ r.slot1.wf = true :=
  fieldsWf_iff r.len r.slot0 r.slot1

/-! ### The packed word carries the packable records -/

/-- A packed field holds a 4-bit index and a 32-bit value, whatever its bits. -/
theorem decodeOperand_wf (o : PackedOperand) : (decodeOperand o).wf = true := by
  have hindex : (o.extractLsb' 4 4).toNat < 16 := (o.extractLsb' 4 4).isLt
  have hvalue := fitsSigned_toInt (o.extractLsb' 8 32)
  rw [Operand.wf_iff, decodeOperand]
  split
  case h_1 => exact ⟨rfl, rfl⟩
  case h_2 => exact ⟨decide_eq_true hindex, rfl⟩
  case h_3 => exact ⟨rfl, hvalue⟩
  case h_4 =>
    refine ⟨?_, hvalue⟩
    split
    · exact decide_eq_true hindex
    · rfl

theorem packedLen_lt (w : PackedWord) : packedLen w < 256 := (w.extractLsb' 16 8).isLt

/-- Every packed word carries a packable record. -/
theorem decodeRecord_packable (w : PackedWord) : (decodeRecord w).packable = true :=
  (Record.packable_iff _).mpr ⟨packedLen_lt w, decodeOperand_wf _, decodeOperand_wf _⟩

/-- A packable record is the one its own word carries, whatever its operation kind. -/
theorem decodeRecord_encodeRecord {r : Record} (h : r.packable = true) : decodeRecord (encodeRecord r) = r := by
  obtain ⟨hlen, h0, h1⟩ := (Record.packable_iff r).mp h
  rw [decodeRecord, packedOp_encodeRecord, packedWide_encodeRecord, packedLen_encodeRecord hlen,
    packedSlot0_encodeRecord, packedSlot1_encodeRecord, decodeOperand_encodeOperand h0,
    decodeOperand_encodeOperand h1]

/-- Packable is existence at the packed width, with indices that fit their fields. -/
theorem Record.packable_iff_wf (r : Record) :
    r.packable = true ↔
      r.wf Config.packedImmBits = true ∧ r.slot0.indexFits = true ∧ r.slot1.indexFits = true := by
  rw [Record.packable_iff, Record.wf_iff, Operand.wf_iff, Operand.wf_iff]
  tauto

/-- Settles O56: the round trip field by field, the widths of the decoded fields, and the checks of `packable` sorted
into existence at the packed width, which is the default IMM_BITS, and the index fields. -/
theorem packedFormCarriesRecords : Obligations.PackedFormCarriesRecords :=
  ⟨fun _ h => decodeRecord_encodeRecord h, decodeRecord_packable, Record.packable_iff_wf⟩

/-! ### The range of the values of a record -/

/-- The doubled bounds of `fitsSigned` are the bounds of R75. -/
theorem fitsSigned_succ_iff (n : Nat) (v : Int) :
    fitsSigned (n + 1) v = true ↔ -(2 ^ n : Int) ≤ v ∧ v ≤ 2 ^ n - 1 := by
  have hdouble : (2 ^ (n + 1) : Int) = 2 * 2 ^ n := pow_succ' 2 n
  rw [fitsSigned, Bool.and_eq_true, decide_eq_true_iff, decide_eq_true_iff, hdouble]
  omega

/-- An operand holds the value `v` as an immediate or as a displacement (R75). -/
def Operand.HasValue (o : Operand) (v : Int) : Prop := o = .immediate v ∨ ∃ base, o = .memory base v

/-- An operand is in range when every value it holds is. -/
theorem Operand.inRange_iff (immBits : Nat) (o : Operand) :
    o.inRange immBits = true ↔ ∀ v, o.HasValue v → fitsSigned immBits v = true := by
  cases o <;> simp [Operand.inRange, Operand.HasValue]

/-- Settles O57: existence is the range of `len` and of the two operands, and the range of an operand is that of the
value it holds. -/
theorem recordRange : Obligations.RecordRange := by
  intro n r
  have hrange (o : Operand) : o.inRange (n + 1) = true ↔
      ∀ v, o.HasValue v → -(2 ^ n : Int) ≤ v ∧ v ≤ 2 ^ n - 1 := by
    simp only [Operand.inRange_iff, fitsSigned_succ_iff]
  rw [Record.wf_iff, hrange, hrange, Nat.lt_succ_iff, List.forall_mem_cons, List.forall_mem_singleton]
  rfl

end Sys2Proof
end


section
/-! PROOFS. The ALU (42_alu.md section 1): the result and the flags that a completed ADD, SUB or CMP leaves (R132 to
R138), read off the next state, and what they say of the truncated result. -/

namespace Sys2Proof.Machine

/-! ### Reading a write back -/

/-- The half that a half write names reads as written (R24). -/
@[simp] theorem State.half_setHalf_same (s : State) (r : Slot) (h : Half) (b : Byte) :
    (s.setHalf r h b).half r h = b := by
  simp [State.half, State.reg_setHalf]

/-- SF after a flag write is the one computed (R137). -/
theorem State.sf_of_flags {w : Nat} {t : State} {f : Word} {x : AluResult w} (h : t.flags = mergeFlags f x) :
    t.sf = x.sf := by
  rw [State.sf, h, mergeFlags_sf]

/-- PF after a flag write is the one computed (R137). -/
theorem State.pf_of_flags {w : Nat} {t : State} {f : Word} {x : AluResult w} (h : t.flags = mergeFlags f x) :
    t.pf = x.pf := by
  rw [State.pf, h, mergeFlags_pf]

/-! ### What a completed ALU operation leaves -/

section AluNext

variable {op : OpKind} {wb : Bool} {len : Nat} {d : Slot} {h : Half} {src : RegOrImm} {s t : State}

/-- The next state of a word operation on an admitted form: completing already says that the advance was good. -/
theorem arithW_regOrImm_next {alu : Word → Word → AluResult 16} (hop : op.isAlu = true)
    (ht : arithW op alu wb len (regOp d h) src.operand s = .ok t) :
    t = (if wb then ((s.advanced len).writeFlags (alu (s.regAfter len d) (src.word len s))).setReg d
            (alu (s.regAfter len d) (src.word len s)).r
          else (s.advanced len).writeFlags (alu (s.regAfter len d) (src.word len s))) := by
  obtain ⟨_, _, _, hp, -⟩ := arithW_next hop ht
  obtain ⟨-, hadv, -⟩ := prepareTwo_next hp
  rw [arithW_regOrImm hop hadv, Except.ok.injEq] at ht
  exact ht.symm

/-- As `arithW_regOrImm_next`, for a byte operation. -/
theorem arithB_regOrImm_next {alu : Byte → Byte → AluResult 8} (hop : op.isAlu = true)
    (ht : arithB op alu wb len (regOp d h) src.operand s = .ok t) :
    t = (if wb then ((s.advanced len).writeFlags (alu (halfOf h (s.regAfter len d)) (src.byte len s))).setHalf d h
            (alu (halfOf h (s.regAfter len d)) (src.byte len s)).r
          else (s.advanced len).writeFlags (alu (halfOf h (s.regAfter len d)) (src.byte len s))) := by
  obtain ⟨_, _, _, hp, -⟩ := arithB_next hop ht
  obtain ⟨-, hadv, -⟩ := prepareTwo_next hp
  rw [arithB_regOrImm hop hadv, Except.ok.injEq] at ht
  exact ht.symm

/-- FLAGS after a word operation, written back or not (R137). -/
theorem arithW_flags {alu : Word → Word → AluResult 16} (hop : op.isAlu = true)
    (ht : arithW op alu wb len (regOp d h) src.operand s = .ok t) :
    t.flags = mergeFlags s.flags (alu (s.regAfter len d) (src.word len s)) := by
  rw [arithW_regOrImm_next hop ht]
  cases wb <;> rfl

/-- FLAGS after a byte operation, written back or not (R137). -/
theorem arithB_flags {alu : Byte → Byte → AluResult 8} (hop : op.isAlu = true)
    (ht : arithB op alu wb len (regOp d h) src.operand s = .ok t) :
    t.flags = mergeFlags s.flags (alu (halfOf h (s.regAfter len d)) (src.byte len s)) := by
  rw [arithB_regOrImm_next hop ht]
  cases wb <;> rfl

/-- The destination after the write-back of a word operation (R139). -/
theorem arithW_writeBack {alu : Word → Word → AluResult 16} (hop : op.isAlu = true)
    (ht : arithW op alu true len (regOp d h) src.operand s = .ok t) :
    t.reg d = (alu (s.regAfter len d) (src.word len s)).r := by
  rw [arithW_regOrImm_next hop ht]
  exact State.reg_setReg_same _ d _

/-- The destination after the write-back of a byte operation (R139). -/
theorem arithB_writeBack {alu : Byte → Byte → AluResult 8} (hop : op.isAlu = true)
    (ht : arithB op alu true len (regOp d h) src.operand s = .ok t) :
    t.half d h = (alu (halfOf h (s.regAfter len d)) (src.byte len s)).r := by
  rw [arithB_regOrImm_next hop ht]
  exact State.half_setHalf_same _ d h _

/-! ### FLAGS after each instruction -/

theorem addW_flags (ht : exec (.addW len (regOp d h) src.operand) s = .next t) :
    t.flags = mergeFlags s.flags (aluAdd (s.regAfter len d) (src.word len s)) :=
  arithW_flags rfl (outcome_next_iff.mp ht)

theorem addB_flags (ht : exec (.addB len (regOp d h) src.operand) s = .next t) :
    t.flags = mergeFlags s.flags (aluAdd (halfOf h (s.regAfter len d)) (src.byte len s)) :=
  arithB_flags rfl (outcome_next_iff.mp ht)

/-- SUB and CMP leave the same FLAGS (R142). -/
theorem subW_or_cmpW_flags (ht : exec (.subW len (regOp d h) src.operand) s = .next t ∨
      exec (.cmpW len (regOp d h) src.operand) s = .next t) :
    t.flags = mergeFlags s.flags (aluSub (s.regAfter len d) (src.word len s)) := by
  obtain hsub | hcmp := ht
  · exact arithW_flags rfl (outcome_next_iff.mp hsub)
  · exact arithW_flags rfl (outcome_next_iff.mp hcmp)

/-- SUB and CMP leave the same FLAGS (R142). -/
theorem subB_or_cmpB_flags (ht : exec (.subB len (regOp d h) src.operand) s = .next t ∨
      exec (.cmpB len (regOp d h) src.operand) s = .next t) :
    t.flags = mergeFlags s.flags (aluSub (halfOf h (s.regAfter len d)) (src.byte len s)) := by
  obtain hsub | hcmp := ht
  · exact arithB_flags rfl (outcome_next_iff.mp hsub)
  · exact arithB_flags rfl (outcome_next_iff.mp hcmp)

end AluNext

/-! ### Truncation and the sign of the truncated result -/

/-- The result is the raw integer mod 2^W (R132). -/
theorem aluOf_r_toNat (w : Nat) (raw : Int) : ((aluOf w raw).r.toNat : Int) = raw % 2 ^ w := by
  have hpos : 0 ≤ raw % (2 ^ w : Int) := Int.emod_nonneg _ (by positivity)
  simp [aluOf, BitVec.toNat_ofInt, hpos]

/-- SF is the sign test of the result at W bits (R132, R134). -/
theorem aluOf_sf (w : Nat) (raw : Int) : (aluOf w raw).sf = decide (2 ^ (w - 1) ≤ (aluOf w raw).r.toNat) :=
  BitVec.getLsbD_last _

/-- The sign test, said of the raw integer mod 2^W. -/
theorem aluOf_sf_emod (w : Nat) (raw : Int) : (aluOf w raw).sf = decide ((2 ^ (w - 1) : Int) ≤ raw % 2 ^ w) := by
  rw [aluOf_sf, ← aluOf_r_toNat]
  exact decide_eq_decide.mpr (by norm_cast)

/-- A written value and a sign flag that are those of one ALU result: the raw integer truncated, and its sign. -/
theorem truncated_and_signed {w : Nat} {raw : Int} {v : BitVec w} {sf : Bool} (hv : v = (aluOf w raw).r)
    (hsf : sf = (aluOf w raw).sf) : (v.toNat : Int) = raw % 2 ^ w ∧ sf = decide (2 ^ (w - 1) ≤ v.toNat) := by
  subst hv hsf
  exact ⟨aluOf_r_toNat w raw, aluOf_sf w raw⟩

/-- Settles O39: the value written and SF are those of one ALU result, which is the raw sum or difference truncated;
CMP has the SF of SUB. -/
theorem truncatedResultIsWritten : Obligations.TruncatedResultIsWritten := by
  intro s t len d h src
  refine ⟨?addW, ?subW, ?addB, ?subB, ?cmpW, ?cmpB⟩
  case addW =>
    intro ht
    exact truncated_and_signed (arithW_writeBack rfl (outcome_next_iff.mp ht))
      (State.sf_of_flags (addW_flags ht))
  case subW =>
    intro ht
    exact truncated_and_signed (arithW_writeBack rfl (outcome_next_iff.mp ht))
      (State.sf_of_flags (subW_or_cmpW_flags (.inl ht)))
  case addB =>
    intro ht
    exact truncated_and_signed (arithB_writeBack rfl (outcome_next_iff.mp ht))
      (State.sf_of_flags (addB_flags ht))
  case subB =>
    intro ht
    exact truncated_and_signed (arithB_writeBack rfl (outcome_next_iff.mp ht))
      (State.sf_of_flags (subB_or_cmpB_flags (.inl ht)))
  case cmpW =>
    intro ht
    exact (State.sf_of_flags (subW_or_cmpW_flags (.inr ht))).trans (aluOf_sf_emod 16 _)
  case cmpB =>
    intro ht
    exact (State.sf_of_flags (subB_or_cmpB_flags (.inr ht))).trans (aluOf_sf_emod 8 _)

/-- Settles O40: SF is that of the ALU's result, whose top bit is bit W - 1. -/
theorem signFlagIsTopBit : Obligations.SignFlagIsTopBit := by
  intro s len d h src t
  refine ⟨?addW, ?subW, ?addB, ?subB⟩
  case addW => exact fun ht => (State.sf_of_flags (addW_flags ht)).trans (aluAdd_sf _ _)
  case subW => exact fun ht => (State.sf_of_flags (subW_or_cmpW_flags ht)).trans (aluSub_sf _ _)
  case addB => exact fun ht => (State.sf_of_flags (addB_flags ht)).trans (aluAdd_sf _ _)
  case subB => exact fun ht => (State.sf_of_flags (subB_or_cmpB_flags ht)).trans (aluSub_sf _ _)

/-! ### The low byte -/

/-- PF after ADD at 16 bits tests the low byte of the sum (R135). -/
theorem aluAdd_pf_word (a b : Word) : (aluAdd a b).pf = evenOnes (loByte (a + b)) := by
  rw [aluAdd_pf, setWidth_eq_loByte]

theorem aluSub_pf_word (a b : Word) : (aluSub a b).pf = evenOnes (loByte (a - b)) := by
  rw [aluSub_pf, setWidth_eq_loByte]

/-- PF after ADD at 8 bits tests the whole sum (R135). -/
theorem aluAdd_pf_byte (a b : Byte) : (aluAdd a b).pf = evenOnes (a + b) := by
  rw [aluAdd_pf, BitVec.setWidth_eq]

theorem aluSub_pf_byte (a b : Byte) : (aluSub a b).pf = evenOnes (a - b) := by
  rw [aluSub_pf, BitVec.setWidth_eq]

/-- Settles O41: PF is that of the ALU's result, which counts the 1 bits of the low byte at either width. -/
theorem parityFlagCountsLowByte : Obligations.ParityFlagCountsLowByte := by
  intro s len d h src t
  refine ⟨?addW, ?subW, ?addB, ?subB⟩
  case addW => exact fun ht => (State.pf_of_flags (addW_flags ht)).trans (aluAdd_pf_word _ _)
  case subW => exact fun ht => (State.pf_of_flags (subW_or_cmpW_flags ht)).trans (aluSub_pf_word _ _)
  case addB => exact fun ht => (State.pf_of_flags (addB_flags ht)).trans (aluAdd_pf_byte _ _)
  case subB => exact fun ht => (State.pf_of_flags (subB_or_cmpB_flags ht)).trans (aluSub_pf_byte _ _)

end Sys2Proof.Machine
end
section
/-! PROOFS. The dispatch (40_dispatch.md R102): the meaning of an instruction by family, what its next state can be,
and from that the invariant and the host's data along a step and a run (20_memory.md, 70_reset_and_hazards.md). -/

namespace Sys2Proof.Machine

/-! ### The meaning of an instruction -/

/-- What the dispatcher runs for an instruction, as its operation kind and wide flag say. -/
inductive Meaning (i : Instr) : (State → Except Fault State) → Prop
  | wordMove (hop : i.op = .mov) (hw : i.wide = true) : Meaning i (moveW i.len i.slot0 i.slot1)
  | byteMove (hop : i.op = .mov) (hw : i.wide = false) : Meaning i (moveB i.len i.slot0 i.slot1)
  | wordAlu {alu : Word → Word → AluResult 16} {wb : Bool} (hop : i.op.isAlu = true) (hwb : wb = !(i.op == .cmp)) :
      Meaning i (arithW i.op alu wb i.len i.slot0 i.slot1)
  | byteAlu {alu : Byte → Byte → AluResult 8} {wb : Bool} (hop : i.op.isAlu = true) (hwb : wb = !(i.op == .cmp)) :
      Meaning i (arithB i.op alu wb i.len i.slot0 i.slot1)
  | jump {mask : Word} {pol : Bool} (hop : i.op.isBranch = true) (hl : i.op.isLoop = false) :
      Meaning i (condJump i.op mask pol i.len i.slot0 i.slot1)
  | loop {zpol : Bool} (hop : i.op.isBranch = true) (hl : i.op.isLoop = true) :
      Meaning i (loopStep i.op zpol i.len i.slot0 i.slot1)

/-- Every instruction has a meaning, and exec is its outcome (R102). -/
theorem exec_meaning (i : Instr) : ∃ m, Meaning i m ∧ ∀ s, exec i s = outcome (m s) := by
  cases i with
  | movW => exact ⟨_, .wordMove rfl rfl, fun _ => rfl⟩
  | movB => exact ⟨_, .byteMove rfl rfl, fun _ => rfl⟩
  | addW | subW | cmpW => exact ⟨_, .wordAlu rfl rfl, fun _ => rfl⟩
  | addB | subB | cmpB => exact ⟨_, .byteAlu rfl rfl, fun _ => rfl⟩
  | je | jne | jp | jnp | jb | jnb => exact ⟨_, .jump rfl rfl, fun _ => rfl⟩
  | loopz | loopnz => exact ⟨_, .loop rfl rfl, fun _ => rfl⟩

/-! ### What a next state can be -/

theorem State.setPc_pc (s : State) : s.setPc s.pc = s := by
  refine State.ext_reg (fun r => ?_) rfl rfl rfl rfl rfl rfl
  rw [State.reg_setPc]
  split
  next h => rw [h, State.pc]
  next => rfl

/-- The target of a taken branch is a 16-bit sum (R150). -/
theorem ofInt_toNat_add (v : Word) (disp : Int) :
    BitVec.ofInt 16 ((v.toNat : Int) + disp) = v + BitVec.ofInt 16 disp := by
  rw [BitVec.ofInt_add, BitVec.ofInt_natCast, BitVec.ofNat_toNat, BitVec.setWidth_eq]

/-- What an operand that resolves is: a register, or Memory at an admitted address. -/
theorem resolvePlace_ok_cases {op : OpKind} {slot : Fin 2} {o : Operand} {s : State} {p : Place}
    (h : resolvePlace op slot o s = .ok p) :
    (∃ r hf, o = regOp r hf ∧ p = .reg r hf) ∨
      ∃ base disp a, o = .memory base disp ∧ ea base disp s = .ok a ∧ p = .addr a := by
  cases o with
  | none | immediate => cases h
  | register i hf =>
    cases hi : checkIndex i with
    | error f => simp [resolvePlace, hi] at h
    | ok r => exact .inl ⟨r, hf, by rw [regOp, checkIndex_ok hi], by simpa [resolvePlace, hi] using h.symm⟩
  | memory base disp =>
    cases he : ea base disp s with
    | error f => simp [resolvePlace, he] at h
    | ok a => exact .inr ⟨base, disp, a, rfl, he, by simpa [resolvePlace, he] using h.symm⟩

/-- The next states an instruction can give, by the write that ends its step. -/
inductive Effect (i : Instr) (s : State) : State → Prop
  | load {r : Slot} {h : Half} {v : Word} (hop : i.op = .mov) (hdest : i.slot0 = regOp r h) :
      Effect i s ((s.advanced i.len).setReg r v)
  | storeWord {base : Option Nat} {disp : Int} {a : Nat} {v : Word} (hop : i.op = .mov) (hw : i.wide = true)
      (hdest : i.slot0 = .memory base disp) (ha : ea base disp (s.advanced i.len) = .ok a) :
      Effect i s ((s.advanced i.len).setMemWord a v)
  | storeByte {base : Option Nat} {disp : Int} {a : Nat} {v : Byte} (hop : i.op = .mov) (hw : i.wide = false)
      (hdest : i.slot0 = .memory base disp) (ha : ea base disp (s.advanced i.len) = .ok a) :
      Effect i s ((s.advanced i.len).setMemByte a v)
  | alu {w : Nat} {x : AluResult w} {r : Slot} {h : Half} {v : Word} (hop : i.op.isAlu = true) (hne : i.op ≠ .cmp)
      (hdest : i.slot0 = regOp r h) : Effect i s (((s.advanced i.len).writeFlags x).setReg r v)
  | compare {w : Nat} {x : AluResult w} (hop : i.op = .cmp) : Effect i s ((s.advanced i.len).writeFlags x)
  | jump {disp : Int} {v : Word} (hop : i.op.isBranch = true) (hl : i.op.isLoop = false)
      (hdisp : i.slot0 = .immediate disp) (hv : v = s.nextPc i.len ∨ v = s.nextPc i.len + BitVec.ofInt 16 disp) :
      Effect i s ((s.advanced i.len).setPc v)
  | loop {disp : Int} {v : Word} (hop : i.op.isBranch = true) (hl : i.op.isLoop = true)
      (hdisp : i.slot0 = .immediate disp) (hv : v = s.nextPc i.len ∨ v = s.nextPc i.len + BitVec.ofInt 16 disp) :
      Effect i s (((s.advanced i.len).setCounter (s.counter - 1#16)).setPc v)

section Families

variable {i : Instr} {s t : State}

theorem moveW_effect (hop : i.op = .mov) (hw : i.wide = true) (h : moveW i.len i.slot0 i.slot1 s = .ok t) :
    Effect i s t := by
  obtain ⟨p, src, hp, rfl⟩ := moveW_next h
  obtain ⟨-, -, -, hplace, -⟩ := prepareTwo_next hp
  obtain ⟨r, hf, hdest, rfl⟩ | ⟨base, disp, a, hdest, ha, rfl⟩ := resolvePlace_ok_cases hplace
  · exact .load hop hdest
  · exact .storeWord hop hw hdest ha

theorem moveB_effect (hop : i.op = .mov) (hw : i.wide = false) (h : moveB i.len i.slot0 i.slot1 s = .ok t) :
    Effect i s t := by
  obtain ⟨p, src, hp, rfl⟩ := moveB_next h
  obtain ⟨-, -, -, hplace, -⟩ := prepareTwo_next hp
  obtain ⟨r, hf, hdest, rfl⟩ | ⟨base, disp, a, hdest, ha, rfl⟩ := resolvePlace_ok_cases hplace
  · exact .load hop hdest
  · exact .storeByte hop hw hdest ha

theorem arithW_effect {alu : Word → Word → AluResult 16} {wb : Bool} (hop : i.op.isAlu = true)
    (hwb : wb = !(i.op == .cmp)) (h : arithW i.op alu wb i.len i.slot0 i.slot1 s = .ok t) : Effect i s t := by
  obtain ⟨r, hf, src, -, hdest, rfl⟩ := arithW_next hop h
  by_cases hc : i.op = .cmp
  · obtain rfl : wb = false := by simp [hwb, hc]
    exact .compare hc
  · obtain rfl : wb = true := by simp [hwb, hc]
    exact .alu hop hc hdest

theorem arithB_effect {alu : Byte → Byte → AluResult 8} {wb : Bool} (hop : i.op.isAlu = true)
    (hwb : wb = !(i.op == .cmp)) (h : arithB i.op alu wb i.len i.slot0 i.slot1 s = .ok t) : Effect i s t := by
  obtain ⟨r, hf, src, -, hdest, rfl⟩ := arithB_next hop h
  by_cases hc : i.op = .cmp
  · obtain rfl : wb = false := by simp [hwb, hc]
    exact .compare hc
  · obtain rfl : wb = true := by simp [hwb, hc]
    exact .alu hop hc hdest

theorem condJump_effect {mask : Word} {pol : Bool} (hop : i.op.isBranch = true) (hl : i.op.isLoop = false)
    (h : condJump i.op mask pol i.len i.slot0 i.slot1 s = .ok t) : Effect i s t := by
  obtain ⟨-, disp, hdisp, ⟨-, htaken⟩ | ⟨-, rfl⟩⟩ := condJump_next h
  · rw [applyDisp_next htaken, ofInt_toNat_add, State.pc_advanced]
    exact .jump hop hl hdisp (.inr rfl)
  · have := Effect.jump (s := s) hop hl hdisp (.inl rfl)
    rwa [← State.pc_advanced, State.setPc_pc] at this

theorem loopStep_effect {zpol : Bool} (hop : i.op.isBranch = true) (hl : i.op.isLoop = true)
    (h : loopStep i.op zpol i.len i.slot0 i.slot1 s = .ok t) : Effect i s t := by
  obtain ⟨-, disp, u, hdisp, -, rfl, ⟨-, htaken⟩ | ⟨-, rfl⟩⟩ := loopStep_next h
  · rw [applyDisp_next htaken, ofInt_toNat_add, State.pc_setCounter, State.pc_advanced]
    exact .loop hop hl hdisp (.inr rfl)
  · have := Effect.loop (s := s) hop hl hdisp (.inl rfl)
    rwa [← State.pc_advanced, ← State.pc_setCounter _ (s.counter - 1#16), State.setPc_pc] at this

/-- A next state is one of the effects of its instruction. -/
theorem exec_effect (h : exec i s = .next t) : Effect i s t := by
  obtain ⟨m, hm, he⟩ := exec_meaning i
  have ht := outcome_next_iff.mp ((he s).symm.trans h)
  cases hm with
  | wordMove hop hw => exact moveW_effect hop hw ht
  | byteMove hop hw => exact moveB_effect hop hw ht
  | wordAlu hop hwb => exact arithW_effect hop hwb ht
  | byteAlu hop hwb => exact arithB_effect hop hwb ht
  | jump hop hl => exact condJump_effect hop hl ht
  | loop hop hl => exact loopStep_effect hop hl ht

/-! ### The invariant and the host's data -/

theorem Effect.sameHost (h : Effect i s t) : SameHost s t := by
  cases h with
  | load | storeWord | storeByte | alu | compare | jump | loop => exact ⟨rfl, rfl, rfl, rfl⟩

/-- Only a MOV that stores changes Memory (R56, R81). -/
theorem Effect.mem_eq (h : Effect i s t) (hdest : i.op ≠ .mov ∨ i.slot0.kind ≠ .memory) : t.mem = s.mem := by
  cases h with
  | load | alu | compare | jump | loop => rfl
  | storeWord hop _ h0 | storeByte hop _ h0 => simp [hop, h0, Operand.kind] at hdest

/-- A state with the Memory, program and parameters of one in canonical form is in canonical form. -/
theorem State.Inv.of_eq (h : s.Inv) (hm : t.mem = s.mem) (hp : t.program = s.program) (hc : t.params = s.params) :
    t.Inv := by
  rw [State.Inv, hm, hp, hc]
  exact h

/-- A store of one byte inside Memory keeps the canonical form. -/
theorem State.Inv.setMemByte {a : Nat} (h : s.Inv) (b : Byte) (ha : a < s.params.memSize) :
    (s.setMemByte a b).Inv :=
  ⟨Memory.wf_write b h.1 ha, h.2⟩

theorem State.Inv.advanced (h : s.Inv) (len : Nat) : (s.advanced len).Inv := h.of_eq rfl rfl rfl

/-- An effect keeps the canonical form: a store by the bounds check of its address, any other since it writes no
Memory. -/
theorem Effect.inv (h : Effect i s t) (hs : s.Inv) : t.Inv := by
  obtain ⟨-, hprogram, hparams, -⟩ := h.sameHost
  cases h with
  | load | alu | compare | jump | loop => exact hs.of_eq rfl hprogram hparams
  | storeByte _ _ _ ha =>
    have hin := ea_ok ha
    exact (hs.advanced _).setMemByte _ (by omega)
  | storeWord _ _ _ ha =>
    have hin := ea_ok ha
    exact ((hs.advanced _).setMemByte _ (by omega)).setMemByte _ hin

end Families

/-! ### The step and the run -/

/-- What a step that answers a next state has run. -/
theorem step_next {s t : State} (h : step s = .next t) :
    s.status = .running ∧ ∃ r i, s.fetch = some r ∧ r.instr = .ok i ∧ exec i s = .next t := by
  cases hst : s.status with
  | faulted f => simp [step, hst] at h
  | running =>
    cases hf : s.fetch with
    | none => simp [step, hst, hf] at h
    | some r =>
      cases hi : r.instr with
      | error e =>
        rcases advance_cases r.len s with ⟨-, ha⟩ | ⟨-, ha⟩ <;>
          simp [step, hst, hf, execRecord, hi, execUnimplemented, ha] at h
      | ok i => exact ⟨rfl, r, i, rfl, hi, by simpa [step, hst, hf, execRecord, hi] using h⟩

/-- Settles O6: a next state is an effect of the instruction run, and an effect keeps the canonical form. -/
theorem stepKeepsInvariant : Obligations.StepKeepsInvariant := by
  intro s t hs h
  obtain ⟨-, _, _, -, -, he⟩ := step_next h
  exact (exec_effect he).inv hs

/-- Settles O8: a next state is an effect of the instruction run, and an effect leaves the host's data. -/
theorem stepKeepsHostData : Obligations.StepKeepsHostData := by
  intro s t h
  obtain ⟨hrun, _, _, -, -, he⟩ := step_next h
  obtain ⟨hstatus, hrest⟩ := (exec_effect he).sameHost
  exact ⟨hstatus.trans hrun, hrest⟩

/-- What one step of the host can do: keep the state, take the next one, or record a fault. -/
theorem hostStep_cases (s : State) :
    hostStep s = s ∨ (step s = .next (hostStep s)) ∨ ∃ f, step s = .fault f ∧ hostStep s = s.takeFault f := by
  cases hst : s.status with
  | faulted f => exact .inl (by simp [hostStep, hst])
  | running =>
    cases h : step s with
    | next t => exact .inr (.inl (by simp [hostStep, hst, h]))
    | fault f => exact .inr (.inr ⟨f, rfl, by simp [hostStep, hst, h]⟩)
    | refused r => exact .inl (by simp [hostStep, hst, h])

/-- The free contents after a fault are a Memory of the same size (R174, log entry 5). -/
theorem State.Inv.takeFault {s : State} (h : s.Inv) (f : Fault) : (s.takeFault f).Inv :=
  ⟨Memory.wf_ofCells _ _, h.2⟩

theorem hostStep_inv {s : State} (h : s.Inv) : (hostStep s).Inv := by
  obtain he | he | ⟨f, -, he⟩ := hostStep_cases s
  · rwa [he]
  · exact stepKeepsInvariant s _ h he
  · rw [he]
    exact h.takeFault f

/-- Settles O7, by induction on the number of steps. -/
theorem runKeepsInvariant : Obligations.RunKeepsInvariant := by
  intro n
  induction n with
  | zero => exact fun _ hs => hs
  | succ n ih => exact fun s hs => ih (hostStep s) (hostStep_inv hs)

end Sys2Proof.Machine
end

section
/-! PROOFS. Frames (10_state.md section 6): what an effect leaves unchanged, and the value of `pc` after it. -/

namespace Sys2Proof.Machine

section Frames

variable {i : Instr} {s t : State}

theorem unnamed_writeFlags {w : Nat} (s : State) (x : AluResult w) {n : Nat} (hn : unnamedBit n) :
    (s.writeFlags x).flags.getLsbD n = s.flags.getLsbD n := by
  rw [State.flags_writeFlags, mergeFlags_unnamed _ _ hn]

/-- Only ADD, SUB and CMP write FLAGS (R31). -/
theorem Effect.flags_eq (h : Effect i s t) (hop : i.op.isAlu = false) : t.flags = s.flags := by
  cases h with
  | load | storeWord | storeByte | jump | loop => rfl
  | alu halu => simp [hop] at halu
  | compare hcmp => simp [hcmp, OpKind.isAlu] at hop

/-- No effect writes an unnamed bit of FLAGS (R30, R137). -/
theorem Effect.unnamed (h : Effect i s t) {n : Nat} (hn : unnamedBit n) :
    t.flags.getLsbD n = s.flags.getLsbD n := by
  cases h with
  | load | storeWord | storeByte | jump | loop => rfl
  | alu | compare => exact unnamed_writeFlags _ _ hn

/-- A register that is not `pc`, not the destination and not a loop's counter is as before. -/
theorem Effect.reg_eq (h : Effect i s t) {r : Slot} (hpc : r ≠ ipSlot)
    (hdest : i.op ≠ .cmp → ∀ hf, i.slot0 ≠ regOp r hf)
    (hloop : i.op.isLoop = true → r ≠ counterSlot s.params) : t.reg r = s.reg r := by
  cases h with
  | storeWord | storeByte | compare => simp [State.regAfter_ne _ _ hpc]
  | load hop h0 =>
    have hne := hdest (by simp [hop])
    rw [State.reg_setReg_ne, State.reg_advanced, State.regAfter_ne _ _ hpc]
    rintro rfl
    exact hne _ h0
  | alu _ hop h0 =>
    rw [State.reg_setReg_ne, State.reg_writeFlags, State.reg_advanced, State.regAfter_ne _ _ hpc]
    rintro rfl
    exact hdest hop _ h0
  | jump => rw [State.reg_setPc_ne _ _ _ hpc, State.reg_advanced, State.regAfter_ne _ _ hpc]
  | loop _ hl =>
    rw [State.reg_setPc_ne _ _ _ hpc, State.setCounter, State.reg_setReg_ne, State.reg_advanced,
      State.regAfter_ne _ _ hpc]
    exact hloop hl

/-- `pc` after an instruction that is no branch and does not write index 13 is the post-advance value (R109). -/
theorem Effect.pc_eq (h : Effect i s t) (hop : i.op.isBranch = false)
    (hdest : i.op ≠ .cmp → ∀ hf, i.slot0 ≠ regOp ipSlot hf) : t.reg ipSlot = s.nextPc i.len := by
  cases h with
  | storeWord | storeByte | compare => simp
  | load hmov h0 =>
    have hne := hdest (by simp [hmov])
    rw [State.reg_setReg_ne, State.reg_advanced, State.regAfter_ipSlot]
    rintro rfl
    exact hne _ h0
  | alu _ hcmp h0 =>
    rw [State.reg_setReg_ne, State.reg_writeFlags, State.reg_advanced, State.regAfter_ipSlot]
    rintro rfl
    exact hdest hcmp _ h0
  | jump hb | loop hb => simp [hop] at hb

/-- `pc` after a branch is the post-advance value, or that plus the displacement (R150, R151). -/
theorem Effect.pc_of_branch (h : Effect i s t) (hop : i.op.isBranch = true) :
    t.reg ipSlot = s.nextPc i.len ∨
      ∃ disp, i.slot0 = .immediate disp ∧ t.reg ipSlot = s.nextPc i.len + BitVec.ofInt 16 disp := by
  cases h with
  | load hmov | storeWord hmov | storeByte hmov => simp [hmov, OpKind.isBranch] at hop
  | compare hcmp => simp [hcmp, OpKind.isBranch] at hop
  | alu halu => cases h : i.op <;> simp [h, OpKind.isBranch, OpKind.isAlu] at hop halu
  | jump _ _ hdisp hv | loop _ _ hdisp hv =>
    exact hv.imp ((State.pc_setPc _ _).trans ·) fun hv => ⟨_, hdisp, (State.pc_setPc _ _).trans hv⟩

theorem Effect.sameMemory (h : Effect i s t) (hdest : i.op ≠ .mov ∨ i.slot0.kind ≠ .memory) : SameMemory s t := by
  intro a
  rw [State.memByte, h.mem_eq hdest, State.memByte]

end Frames

/-! ### The returned value -/

/-- Settles O16: the value of `pc` by the effect of the instruction. -/
theorem returnedPc : Obligations.ReturnedPc := by
  intro i s t h
  have he := exec_effect h
  refine ⟨by rw [h]; rfl, fun hop hdest => ?_, fun hcmp => ?_, he.pc_of_branch⟩
  · exact he.pc_eq hop fun _ hf => hdest hf
  · exact he.pc_eq (by simp [hcmp, OpKind.isBranch]) fun hne => absurd hcmp hne

/-! ### FLAGS -/

/-- Settles O42: FLAGS by the effect of the instruction. -/
theorem onlyAluWritesFlags : Obligations.OnlyAluWritesFlags :=
  fun _ _ _ h => ⟨(exec_effect h).flags_eq, fun _ hn => (exec_effect h).unnamed hn⟩

/-- What a running state keeps of an earlier one: the unnamed bits of FLAGS, the program and the parameters. -/
def SameLaunchData (s t : State) : Prop :=
  (∀ b, unnamedBit b → t.flags.getLsbD b = s.flags.getLsbD b) ∧ t.program = s.program ∧ t.params = s.params

theorem SameLaunchData.trans {s t u : State} (h : SameLaunchData s t) (k : SameLaunchData t u) :
    SameLaunchData s u := by
  obtain ⟨hflags, hprogram, hparams⟩ := h
  obtain ⟨kflags, kprogram, kparams⟩ := k
  exact ⟨fun b hb => (kflags b hb).trans (hflags b hb), kprogram.trans hprogram, kparams.trans hparams⟩

theorem Effect.sameLaunchData {i : Instr} {s t : State} (h : Effect i s t) : SameLaunchData s t := by
  obtain ⟨-, hprogram, hparams, -⟩ := h.sameHost
  exact ⟨fun _ hb => h.unnamed hb, hprogram, hparams⟩

/-- A step of the host that leaves a running state has taken a next state or kept the state. -/
theorem hostStep_sameLaunchData {s : State} (h : (hostStep s).status = .running) :
    SameLaunchData s (hostStep s) := by
  obtain he | he | ⟨f, -, he⟩ := hostStep_cases s
  · rw [he]
    exact ⟨fun _ _ => rfl, rfl, rfl⟩
  · obtain ⟨-, _, _, -, -, hexec⟩ := step_next he
    exact (exec_effect hexec).sameLaunchData
  · rw [he] at h
    cases h

/-- A step of the host does not set a faulted state running. -/
theorem running_of_hostStep {s : State} (h : (hostStep s).status = .running) : s.status = .running := by
  cases hst : s.status with
  | running => rfl
  | faulted f => simp [hostStep, hst] at h

/-- Settles O43, by induction on the number of steps: a run that ends running was running all along. -/
theorem unnamedFlagsAlongARun : Obligations.UnnamedFlagsAlongARun := by
  intro n
  induction n with
  | zero => exact fun _ _ => ⟨fun _ _ => rfl, rfl, rfl⟩
  | succ n ih =>
    intro s h
    rw [hostRun_succ] at h ⊢
    exact SameLaunchData.trans (ih s (running_of_hostStep h)) (hostStep_sameLaunchData h)

/-! ### The frames of the families -/

/-- A form of MOV, ADD, SUB or CMP is no loop and has its operands in their slots. -/
theorem twoOperandForms_spec {mk : Nat → Operand → Operand → Instr} (hmk : mk ∈ movForms ++ aluForms)
    (len : Nat) (a b : Operand) : (mk len a b).slot0 = a ∧ (mk len a b).op.isLoop = false := by
  simp only [movForms, aluForms, List.mem_append, List.mem_cons, List.not_mem_nil, or_false] at hmk
  obtain (rfl | rfl) | rfl | rfl | rfl | rfl | rfl | rfl := hmk <;> exact ⟨rfl, rfl⟩

/-- Settles O51: the effect of an instruction whose slot 0 is a register. -/
theorem frameOfRegisterDestination : Obligations.FrameOfRegisterDestination := by
  intro mk hmk len i h src s t hexec
  have he := exec_effect hexec
  obtain ⟨hslot0, hloop⟩ := twoOperandForms_spec hmk len (.register i h) src
  have hl {r : Slot} : (mk len (.register i h) src).op.isLoop = true → r ≠ counterSlot s.params := by simp [hloop]
  refine ⟨fun r hr hpc => he.reg_eq hpc (fun _ hf => ?_) hl, fun hcmp r hpc => he.reg_eq hpc (absurd hcmp ·) hl,
    he.sameMemory (.inr ?_), he.sameHost, fun n hn => he.unnamed hn,
    fun hop => he.flags_eq (by simp [hop, OpKind.isAlu])⟩
  · rw [hslot0]
    rintro ⟨⟩
    exact hr rfl
  · simp [hslot0, Operand.kind]

/-- A MOV into Memory leaves every register but `pc`, FLAGS and the host's data. -/
theorem Effect.noRegister_of_memory {i : Instr} {s t : State} (h : Effect i s t) (hop : i.op = .mov)
    (hdest : i.slot0.kind = .memory) : NoRegister i.len s t ∧ t.flags = s.flags := by
  have hne {r : Slot} (hf : Half) : i.slot0 ≠ regOp r hf := by
    intro h0
    simp [h0, regOp, Operand.kind] at hdest
  exact ⟨⟨fun r hpc => h.reg_eq hpc (fun _ => hne) (by simp [hop, OpKind.isLoop]), h.sameHost,
    h.pc_eq (by simp [hop, OpKind.isBranch]) fun _ => hne⟩, h.flags_eq (by simp [hop, OpKind.isAlu])⟩

/-- A word store changes two bytes. -/
theorem movW_memory_frame {len : Nat} {base : Option Nat} {disp : Int} {src : Operand} {s t : State}
    (h : Effect (.movW len (.memory base disp) src) s t) {a q : Nat} (ha : ea base disp (s.advanced len) = .ok a)
    (hq : q ≠ a) (hq1 : q ≠ a + 1) : t.memByte q = s.memByte q := by
  cases h with
  | storeWord _ _ h0 hb =>
    cases h0
    obtain rfl := Except.ok.inj (ha.symm.trans hb)
    rw [State.memByte_setMemWord, if_neg hq1, if_neg hq, State.memByte_advanced]
  | load _ h0 => cases h0
  | storeByte _ hw => cases hw
  | alu hop | compare hop | jump hop | loop hop => cases hop

/-- A byte store changes one byte. -/
theorem movB_memory_frame {len : Nat} {base : Option Nat} {disp : Int} {src : Operand} {s t : State}
    (h : Effect (.movB len (.memory base disp) src) s t) {a q : Nat} (ha : ea base disp (s.advanced len) = .ok a)
    (hq : q ≠ a) : t.memByte q = s.memByte q := by
  cases h with
  | storeByte _ _ h0 hb =>
    cases h0
    obtain rfl := Except.ok.inj (ha.symm.trans hb)
    rw [State.memByte_setMemByte, if_neg hq, State.memByte_advanced]
  | load _ h0 => cases h0
  | storeWord _ hw => cases hw
  | alu hop | compare hop | jump hop | loop hop => cases hop

/-- Settles O52: the effect of a MOV whose slot 0 is Memory is a store at the address of slot 0. -/
theorem frameOfMemoryDestination : Obligations.FrameOfMemoryDestination := by
  intro len base disp src s t
  refine ⟨fun h => ?_, fun h => ?_⟩
  · have he := exec_effect h
    obtain ⟨hregs, hflags⟩ := he.noRegister_of_memory rfl rfl
    exact ⟨hregs, hflags, fun _ ha _ => movW_memory_frame he ha⟩
  · have he := exec_effect h
    obtain ⟨hregs, hflags⟩ := he.noRegister_of_memory rfl rfl
    exact ⟨hregs, hflags, fun _ ha _ => movB_memory_frame he ha⟩

theorem jumpForms_spec {mk : Bool → Nat → Operand → Operand → Instr} (hmk : mk ∈ jumpForms)
    (wide : Bool) (len : Nat) (a b : Operand) :
    (mk wide len a b).op.isBranch = true ∧ (mk wide len a b).op.isLoop = false := by
  simp only [jumpForms, List.mem_cons, List.not_mem_nil, or_false] at hmk
  obtain rfl | rfl | rfl | rfl | rfl | rfl := hmk <;> exact ⟨rfl, rfl⟩

theorem loopForms_spec {mk : Bool → Nat → Operand → Operand → Instr} (hmk : mk ∈ loopForms)
    (wide : Bool) (len : Nat) (a b : Operand) : (mk wide len a b).op.isBranch = true := by
  simp only [loopForms, List.mem_cons, List.not_mem_nil, or_false] at hmk
  obtain rfl | rfl := hmk <;> rfl

theorem OpKind.not_alu_nor_mov_of_isBranch {op : OpKind} (h : op.isBranch = true) : op.isAlu = false ∧ op ≠ .mov := by
  cases op with
  | mov | add | sub | cmp => cases h
  | je | jne | jp | jnp | jb | jnb | loopz | loopnz => exact ⟨rfl, nofun⟩

/-- A branch has an immediate in slot 0, and writes no register but `pc` and a loop's counter. -/
theorem Effect.frame_of_branch {i : Instr} {s t : State} (h : Effect i s t) (hop : i.op.isBranch = true) :
    (∀ r, r ≠ ipSlot → (i.op.isLoop = true → r ≠ counterSlot s.params) → t.reg r = s.reg r) ∧
      t.flags = s.flags ∧ SameMemory s t ∧ SameHost s t := by
  obtain ⟨halu, hmov⟩ := OpKind.not_alu_nor_mov_of_isBranch hop
  refine ⟨fun r hpc hl => h.reg_eq hpc (fun _ hf h0 => ?_) hl, h.flags_eq halu, h.sameMemory (.inl hmov),
    h.sameHost⟩
  cases h with
  | load hm | storeWord hm | storeByte hm => exact hmov hm
  | alu ha => simp [halu] at ha
  | compare hc => simp [hc, OpKind.isAlu] at halu
  | jump _ _ hdisp | loop _ _ hdisp => simp [hdisp, regOp] at h0

/-- Settles O53: the effect of a jump or a loop. -/
theorem frameOfBranches : Obligations.FrameOfBranches := by
  intro wide len a b s t
  refine ⟨fun mk hmk h => ?_, fun mk hmk h => ?_⟩
  · obtain ⟨hop, hloop⟩ := jumpForms_spec hmk wide len a b
    obtain ⟨hregs, hrest⟩ := (exec_effect h).frame_of_branch hop
    exact ⟨fun r hpc => hregs r hpc (by simp [hloop]), hrest⟩
  · obtain ⟨hregs, hrest⟩ := (exec_effect h).frame_of_branch (loopForms_spec hmk wide len a b)
    exact ⟨fun r hc hpc => hregs r hpc fun _ => hc, hrest⟩

end Sys2Proof.Machine
end

section
/-! PROOFS. The decoder (30_encoding.md sections 2 and 3): an instruction and its record determine each other (R71,
R72), and the bits that R79 and R80 call ignored. -/

namespace Sys2Proof

/-! ### Records of instructions -/

/-- The codes without an operation kind (R72). -/
theorem ofCode_eq_none_iff (c : BitVec 8) : OpKind.ofCode c = none ↔ c.toNat = 0 ∨ 0x0C < c.toNat := by
  revert c
  decide

/-- A code that has an operation kind is that kind's code. -/
theorem code_of_ofCode {c : BitVec 8} {op : OpKind} (h : OpKind.ofCode c = some op) : op.code = c := by
  rw [OpKind.ofCode] at h
  apply BitVec.eq_of_toNat_eq
  split at h
  case h_13 => cases h
  all_goals
    cases h
    exact Eq.symm ‹c.toNat = _›

/-- The record of an instruction is that instruction. -/
theorem Instr.instr_record (i : Instr) : i.record.instr = .ok i := by
  simp only [Record.instr, Instr.record, ofCode_code, instrOf_fields]

/-- A record that is an instruction is that instruction's record. -/
theorem Instr.record_of_instr {r : Record} {i : Instr} (h : r.instr = .ok i) : i.record = r := by
  cases hop : OpKind.ofCode r.op with
  | none => simp [Record.instr, hop] at h
  | some op =>
    obtain rfl : instrOf op r.wide r.len r.slot0 r.slot1 = i := by simpa [Record.instr, hop] using h
    rw [Instr.record, instrOf_op, instrOf_wide, instrOf_len, instrOf_slot0, instrOf_slot1, code_of_ofCode hop]

/-- A record is an instruction exactly when its operation kind is one of the twelve. -/
theorem Record.exists_instr_iff (r : Record) : (∃ i, r.instr = .ok i) ↔ OpKind.ofCode r.op ≠ none := by
  cases hop : OpKind.ofCode r.op <;> simp [Record.instr, hop]

/-- The well-formed instructions are those whose record the packed port carries. -/
theorem Instr.wf_eq_packable (i : Instr) : i.wf = i.record.packable := Instr.wf_eq i

/-- Settles O24: the packed word carries the record, and the record of an instruction is that instruction. -/
theorem decodeEncode : Obligations.DecodeEncode := by
  intro i hi
  rw [decode, encode, decodeRecord_encodeRecord (i.wf_eq_packable ▸ hi), Instr.instr_record]

/-- Settles O25: the instruction's record is the one the word carries, which is packable. -/
theorem decodedIsWellFormed : Obligations.DecodedIsWellFormed := by
  intro w i h
  have hwf : i.wf = true := by
    rw [Instr.wf_eq_packable, Instr.record_of_instr h]
    exact decodeRecord_packable w
  exact ⟨hwf, (decodeEncode i hwf).trans h.symm⟩

/-- Settles O26: the instruction's record is the one the word carries, whose fields are the header's. -/
theorem decodeReadsHeader : Obligations.DecodeReadsHeader := by
  intro w
  refine ⟨fun i h => ?_, ?_⟩
  · have hr := Instr.record_of_instr h
    exact ⟨congrArg Record.op hr, congrArg Record.wide hr, congrArg Record.len hr⟩
  · refine (Record.exists_instr_iff (decodeRecord w)).trans ?_
    rw [ne_eq, ofCode_eq_none_iff]
    change ¬((w.extractLsb' 0 8).toNat = 0 ∨ 0x0C < (w.extractLsb' 0 8).toNat) ↔ _
    omega

/-- Settles O23: the decoder run on the seven words. -/
theorem decodeOfSpecWords : Obligations.DecodeOfSpecWords := ⟨rfl, rfl, rfl, rfl, rfl, rfl, rfl⟩

/-! ### The ignored bits -/

/-- Flipping a bit outside a field leaves the field. -/
theorem extractLsb'_flip {n k start len : Nat} (x : BitVec n) (h : k < start ∨ start + len ≤ k) :
    (x ^^^ BitVec.twoPow n k).extractLsb' start len = x.extractLsb' start len := by
  apply BitVec.eq_of_getLsbD_eq
  intro i hi
  have hne : k ≠ start + i := by omega
  simp [BitVec.getLsbD_extractLsb', BitVec.getLsbD_twoPow, hne]

/-- Flipping another bit leaves a bit. -/
theorem getLsbD_flip {n k i : Nat} (x : BitVec n) (h : k ≠ i) :
    (x ^^^ BitVec.twoPow n k).getLsbD i = x.getLsbD i := by
  simp [BitVec.getLsbD_twoPow, h]

/-- A reserved bit is outside every field of the record (R79). -/
theorem decodeRecord_flip_reserved (w : PackedWord) {n : Nat} (h9 : 9 ≤ n) (h15 : n ≤ 15) :
    decodeRecord (w ^^^ BitVec.twoPow 104 n) = decodeRecord w := by
  simp only [decodeRecord, packedOp, packedWide, packedLen, packedSlot0, packedSlot1]
  rw [extractLsb'_flip w (by omega), extractLsb'_flip w (by omega), extractLsb'_flip w (by omega),
    extractLsb'_flip w (by omega), getLsbD_flip w (by omega)]

/-- An ignored bit is outside every field that the operand's kind reads (R80). -/
theorem decodeOperand_flip_ignored (o : PackedOperand) {n : Nat} (h : Machine.ignoredBit o n) :
    decodeOperand (o ^^^ BitVec.twoPow 40 n) = decodeOperand o := by
  have hlt : (o.extractLsb' 0 2).toNat < 4 := (o.extractLsb' 0 2).isLt
  obtain hk | hk | hk | hk : (o.extractLsb' 0 2).toNat = 0 ∨ (o.extractLsb' 0 2).toNat = 1 ∨
      (o.extractLsb' 0 2).toNat = 2 ∨ (o.extractLsb' 0 2).toNat = 3 := by omega
  all_goals simp only [Machine.ignoredBit, hk] at h
  all_goals have hkind := extractLsb'_flip o (by omega : n < 0 ∨ 0 + 2 ≤ n)
  case inl => simp only [decodeOperand, hkind, hk]
  case inr.inl =>
    have hindex := extractLsb'_flip o (by omega : n < 4 ∨ 4 + 4 ≤ n)
    have hhalf := getLsbD_flip o (by omega : n ≠ 2)
    simp only [decodeOperand, hkind, hk, hindex, hhalf]
  case inr.inr.inl =>
    have hvalue := extractLsb'_flip o (by omega : n < 8 ∨ 8 + 32 ≤ n)
    simp only [decodeOperand, hkind, hk, hvalue]
  case inr.inr.inr =>
    have hvalue := extractLsb'_flip o (by omega : n < 8 ∨ 8 + 32 ≤ n)
    have hbase := getLsbD_flip o (by omega : n ≠ 3)
    obtain rfl | ⟨hnone, -, -⟩ := h
    · have hindex := extractLsb'_flip o (by omega : 2 < 4 ∨ 4 + 4 ≤ 2)
      simp only [decodeOperand, hkind, hk, hvalue, hbase, hindex]
    · simp only [decodeOperand, hkind, hk, hvalue, hbase, hnone, Bool.false_eq_true, if_false]

/-- Settles O27: a bit flipped outside the fields the decoder reads. -/
theorem ignoredBitsHaveNoEffect : Obligations.IgnoredBitsHaveNoEffect := by
  refine ⟨fun w n h9 h15 => ?_, fun o n _ h => decodeOperand_flip_ignored o h⟩
  rw [decode, decodeRecord_flip_reserved w h9 h15, decode]

end Sys2Proof
end

section
/-! PROOFS. The state the host sets up and sees (10_state.md section 7, 20_memory.md section 3, 70_reset_and_hazards.md
section 2), and the step as the dispatch of a record (40_dispatch.md, 60_exceptions.md). -/

namespace Sys2Proof.Machine

/-! ### Memory, reset and launch -/

/-- Every byte but the two of a word store. -/
theorem memByte_setMemWord_ne {u : State} {a q : Nat} (v : Word) (hq : q ≠ a) (hq1 : q ≠ a + 1) :
    (u.setMemWord a v).memByte q = u.memByte q := by
  rw [State.memByte_setMemWord, if_neg hq1, if_neg hq]

theorem memByte_setMemWord_low (u : State) (a : Nat) (v : Word) : (u.setMemWord a v).memByte a = loByte v := by
  simp [State.memByte_setMemWord]

theorem memByte_setMemWord_high (u : State) (a : Nat) (v : Word) :
    (u.setMemWord a v).memByte (a + 1) = hiByte v := by
  simp [State.memByte_setMemWord]

theorem memByte_setMemByte_same (u : State) (a : Nat) (b : Byte) : (u.setMemByte a b).memByte a = b := by
  simp [State.memByte_setMemByte]

theorem memByte_setMemByte_ne {u : State} {a q : Nat} (b : Byte) (hq : q ≠ a) :
    (u.setMemByte a b).memByte q = u.memByte q := by
  rw [State.memByte_setMemByte, if_neg hq]

/-- Settles O2: the two bytes a word store writes, put together as a word read does. -/
theorem mixedWidthMemory : Obligations.MixedWidthMemory := by
  intro s a v
  have hlow := memByte_setMemWord_low s a v
  have hhigh := memByte_setMemWord_high s a v
  have hnext : (s.setMemWord a v).memByte (a + 2) = s.memByte (a + 2) :=
    memByte_setMemWord_ne v (by omega) (by omega)
  refine ⟨hlow, hhigh, ?_, ?_⟩
  · rw [State.memWord, hlow, hhigh, joinBytes_hi_lo]
  · rw [State.memWord, hhigh, hnext]
    rfl

/-- Settles O3: the fields of the reset state. -/
theorem resetValues : Obligations.ResetValues := by
  refine ⟨fun r => ?_, rfl, fun _ => rfl, rfl, rfl, rfl, rfl, rfl, rfl⟩
  simp [State.reset, State.reg]

/-- Settles O4: an empty Memory and an empty program are in canonical form. -/
theorem resetMeetsInvariant : Obligations.ResetMeetsInvariant :=
  ⟨Memory.wf_nil _, Program.wf_ofList _ []⟩

/-- A byte outside Memory is left out, so its address reads as reset left it. -/
theorem Memory.read_foldl_outside {size a : Nat} (cells : List Host.Cell) {m : Memory} (h : size ≤ a) :
    Memory.read (cells.foldl (fun m c => if c.1 < size then Memory.write m c.1 c.2 else m) m) a =
      Memory.read m a := by
  induction cells generalizing m with
  | nil => rfl
  | cons c rest ih =>
    refine ih.trans ?_
    by_cases hc : c.1 < size
    · have hne : a ≠ c.1 := by omega
      simp [hc, Memory.read_write, hne]
    · simp [hc]

/-- Settles O5: the Memory and the program built from the lists, read at one address and at one pc. -/
theorem launchStateIsCanonical : Obligations.LaunchStateIsCanonical := by
  intro p regs flags bytes program
  refine ⟨⟨Memory.wf_ofCells _ _, Program.wf_ofList _ _⟩, rfl, rfl, fun _ => rfl, rfl, ?listed, ?blank, ?record,
    fun q h => Program.fetch_foldl program h⟩
  case listed =>
    rintro front a v rest rfl hrest ha
    exact Memory.read_ofCells front rest ha hrest
  case blank =>
    rintro a (h | h)
    · exact Memory.read_foldl bytes h
    · exact Memory.read_foldl_outside bytes h
  case record =>
    rintro front q i rest rfl hi hrest
    exact Program.fetch_ofList front rest hi hrest

/-! ### The step as the dispatch of a record -/

section Dispatch

variable {s : State} {r : Record} {i : Instr} {f : Fault}

theorem step_of_fetch (hrun : s.status = .running) (hf : s.fetch = some r) : step s = execRecord r s := by
  simp [step, hrun, hf]

theorem step_of_faulted (h : s.status = .faulted f) : step s = .fault f := by
  simp [step, h]

theorem execRecord_of_instr (h : r.instr = .ok i) : execRecord r s = exec i s := by
  simp [execRecord, h]

theorem execRecord_of_no_kind (h : OpKind.ofCode r.op = none) :
    execRecord r s = execUnimplemented r.op r.len s := by
  simp [execRecord, Record.instr, h]

theorem execUnimplemented_advanced {op : BitVec 8} {len : Nat} (h : s.CanAdvance len) :
    execUnimplemented op len s = .fault (.unimplemented op) := by
  simp [execUnimplemented, advance_ok h]

theorem execUnimplemented_overflow {op : BitVec 8} {len : Nat} (h : ¬s.CanAdvance len) :
    execUnimplemented op len s = .fault (.ipOverflow ((s.pc.toNat : Int) + len)) := by
  simp [execUnimplemented, advance_overflow h]

end Dispatch

/-- Settles O9: the dispatch of the record fetched. -/
theorem stepRunsDecodedInstruction : Obligations.StepRunsDecodedInstruction :=
  ⟨fun _ _ _ hrun hf hi => (step_of_fetch hrun hf).trans (execRecord_of_instr hi),
    fun _ _ _ hrun hf hi => (step_of_fetch hrun hf).trans (execRecord_of_instr hi)⟩

/-- Settles O10: the dispatch of a record whose code has no operation kind. -/
theorem unimplementedKindsFault : Obligations.UnimplementedKindsFault := by
  intro s r hrun hf hop
  rw [step_of_fetch hrun hf, execRecord_of_no_kind ((ofCode_eq_none_iff r.op).mpr hop)]
  exact ⟨execUnimplemented_advanced, execUnimplemented_overflow⟩

/-- Settles O11: the branch of `step` for an empty entry of the program. -/
theorem endOfProgramStops : Obligations.EndOfProgramStops := by
  intro s hrun hf
  simp [step, hrun, hf]

/-- A faulted state is where the host's run stays. -/
theorem hostRun_of_faulted {s : State} {f : Fault} (h : s.status = .faulted f) (n : Nat) : hostRun n s = s := by
  have hstep : hostStep s = s := by simp [hostStep, h]
  induction n with
  | zero => rfl
  | succ n ih => rw [hostRun, hstep, ih]

/-- Settles O12: step repeats the fault, and the host's run stays where it is. -/
theorem faultedRunIsFinal : Obligations.FaultedRunIsFinal :=
  fun _ _ h => ⟨step_of_faulted h, hostRun_of_faulted h⟩

/-- The first step of a run that faults records the fault, and the run stays there. -/
theorem hostRun_of_fault {s : State} {f : Fault} (hrun : s.status = .running) (h : step s = .fault f) (n : Nat) :
    hostRun (n + 1) s = s.takeFault f := by
  have hstep : hostStep s = s.takeFault f := by simp [hostStep, hrun, h]
  rw [hostRun, hstep, hostRun_of_faulted (State.status_takeFault s f)]

/-- Settles O13: the run stays in the state that the fault leaves. -/
theorem faultIsRecorded : Obligations.FaultIsRecorded := by
  intro s f n hrun h
  rw [hostRun_of_fault hrun h]
  exact ⟨State.status_takeFault s f, step_of_faulted (State.status_takeFault s f)⟩

/-- Every instruction ends in a next state or a fault. -/
theorem exec_ne_refused (i : Instr) (s : State) (r : Refusal) : exec i s ≠ .refused r := by
  obtain ⟨m, -, hm⟩ := exec_meaning i
  rw [hm]
  exact outcome_ne_refused _ r

theorem execRecord_ne_refused (r : Record) (s : State) (x : Refusal) : execRecord r s ≠ .refused x := by
  cases hop : OpKind.ofCode r.op with
  | none =>
    rw [execRecord_of_no_kind hop]
    by_cases h : s.CanAdvance r.len
    · simp [execUnimplemented_advanced h]
    · simp [execUnimplemented_overflow h]
  | some op =>
    obtain ⟨i, hi⟩ := (Record.exists_instr_iff r).mpr (by simp [hop])
    rw [execRecord_of_instr hi]
    exact exec_ne_refused i s x

/-- Settles O14: a record that is fetched is never refused, so a refusal is the empty program entry. -/
theorem refusalOnlyAtEndOfRun : Obligations.RefusalOnlyAtEndOfRun := by
  refine ⟨exec_ne_refused, fun s r h => ?_⟩
  cases hrun : s.status with
  | faulted f => simp [step_of_faulted hrun] at h
  | running =>
    cases hf : s.fetch with
    | none =>
      rw [endOfProgramStops s hrun hf] at h
      cases h
      exact ⟨rfl, rfl, rfl⟩
    | some q => exact absurd ((step_of_fetch hrun hf).symm.trans h) (execRecord_ne_refused q s r)

/-- The record placed at `pc` is the one fetched. -/
theorem State.fetch_placeRecord (s : State) (r : Record) : (s.placeRecord r).fetch = some r :=
  (Program.fetch_place s.program s.pc s.pc r).trans (if_pos rfl)

theorem decode_of_decodeTableWord {nbits w : Nat} {i : Instr} (h : decodeTableWord nbits w = some i) :
    decode (tableWord nbits w) = .ok i := by
  rw [decodeTableWord] at h
  split at h
  next j hj => rw [hj, Option.some.inj h]
  next => cases h

/-- Settles O15: the record placed is the one fetched, and placing it is an update of the program alone. -/
theorem placedWordRunsNext : Obligations.PlacedWordRunsNext := by
  intro s nbits w hrun
  have hstep := step_of_fetch (s := s.withFetchWord nbits w) hrun (s.fetch_placeRecord _)
  exact ⟨hstep, fun _ hi => hstep.trans (execRecord_of_instr (decode_of_decodeTableWord hi)), fun _ => rfl, rfl, rfl,
    rfl, rfl, rfl, fun q hq => (Program.fetch_place s.program s.pc q _).trans (if_neg hq)⟩

/-! ### The advance and the shape check end an instruction -/

section Checks

variable {op : OpKind} {len : Nat} {a b : Operand} {i : Instr} {s : State} {f : Fault}

theorem prepareTwo_advance_error (h : advance len s = .error f) : prepareTwo op len a b s = .error f := by
  simp [prepareTwo, h, bind, Except.bind]

theorem prepareTwo_shape_error (hadv : s.CanAdvance len) (h : checkShape op a b = .error f) :
    prepareTwo op len a b s = .error f := by
  simp [prepareTwo, advance_ok hadv, h, bind, Except.bind]

theorem prepareBranch_advance_error (h : advance len s = .error f) : prepareBranch op len a b s = .error f := by
  simp [prepareBranch, h, bind, Except.bind]

theorem prepareBranch_shape_error (hadv : s.CanAdvance len) (h : checkShape op a b = .error f) :
    prepareBranch op len a b s = .error f := by
  simp [prepareBranch, advance_ok hadv, h, bind, Except.bind]

theorem condJump_error {mask : Word} {pol : Bool} (h : prepareBranch op len a b s = .error f) :
    condJump op mask pol len a b s = .error f := by
  simp [condJump, h, bind, Except.bind]

theorem loopStep_error {zpol : Bool} (h : prepareBranch op len a b s = .error f) :
    loopStep op zpol len a b s = .error f := by
  simp [loopStep, h, bind, Except.bind]

/-- A branch ends in the fault its preparation raises. -/
theorem exec_prepareBranch_error (hi : i.op.isBranch = true)
    (h : prepareBranch i.op i.len i.slot0 i.slot1 s = .error f) : exec i s = .fault f := by
  cases i with
  | movW | movB | addW | addB | subW | subB | cmpW | cmpB => cases hi
  | je | jne | jp | jnp | jb | jnb => exact outcome_fault_iff.mpr (condJump_error h)
  | loopz | loopnz => exact outcome_fault_iff.mpr (loopStep_error h)

/-- A fault of the advance ends any instruction (R101). -/
theorem exec_advance_error (h : advance i.len s = .error f) : exec i s = .fault f := by
  cases hb : i.op.isBranch with
  | false => exact exec_prepareTwo_error hb (prepareTwo_advance_error h)
  | true => exact exec_prepareBranch_error hb (prepareBranch_advance_error h)

/-- After a good advance, a fault of the shape check ends any instruction (R103). -/
theorem exec_shape_error (hadv : s.CanAdvance i.len) (h : checkShape i.op i.slot0 i.slot1 = .error f) :
    exec i s = .fault f := by
  cases hb : i.op.isBranch with
  | false => exact exec_prepareTwo_error hb (prepareTwo_shape_error hadv h)
  | true => exact exec_prepareBranch_error hb (prepareBranch_shape_error hadv h)

end Checks

/-- Settles O17: the advance is the first action of every instruction, and of every record. -/
theorem advanceOverflowComesFirst : Obligations.AdvanceOverflowComesFirst := by
  refine ⟨fun i s h => exec_advance_error (advance_overflow h), fun r s h => ?_⟩
  cases hop : OpKind.ofCode r.op with
  | none => rw [execRecord_of_no_kind hop, execUnimplemented_overflow h]
  | some op =>
    obtain ⟨i, hi⟩ := (Record.exists_instr_iff r).mpr (by simp [hop])
    obtain rfl := Instr.record_of_instr hi
    rw [execRecord_of_instr hi]
    exact exec_advance_error (advance_overflow h)

/-- Settles O18: the fault of the shape check, slot 0 before slot 1. -/
theorem illegalShapesFault : Obligations.IllegalShapesFault :=
  fun _ _ hadv => ⟨fun h0 => exec_shape_error hadv (checkShape_slot0 h0),
    fun h0 h1 => exec_shape_error hadv (checkShape_slot1 h0 h1)⟩

/-! ### The faults an instruction may raise -/

/-- Settles O22: the codes as defined. -/
theorem faultCodes : Obligations.FaultCodes :=
  ⟨fun _ => rfl, fun _ _ _ => rfl, fun _ => rfl, fun _ => rfl, fun _ _ => rfl, fun _ => rfl, fun _ => rfl⟩

section MayRaise

variable {op : OpKind} {len : Nat} {a b : Operand} {s : State} {f : Fault}

/-- A sequence faults in its first part or, after that, in its second. -/
theorem bind_eq_error_iff {α β : Type} {x : Except Fault α} {g : α → Except Fault β} :
    (x >>= g) = .error f ↔ x = .error f ∨ ∃ v, x = .ok v ∧ g v = .error f := by
  cases x <;> simp [bind, Except.bind]

theorem advance_mayRaise (h : advance len s = .error f) : mayRaise op f := by
  obtain ⟨-, he⟩ | ⟨-, he⟩ := advance_cases len s
  · cases he.symm.trans h
  · cases he.symm.trans h
    trivial

theorem checkShape_mayRaise (h : checkShape op a b = .error f) : mayRaise op f := by
  rw [checkShape] at h
  split at h
  · split at h
    · cases h
    · cases h
      rfl
  · cases h
    rfl

theorem checkIndex_mayRaise {i : Nat} (hop : op.isBranch = false) (h : checkIndex i = .error f) : mayRaise op f := by
  rw [checkIndex] at h
  split at h
  · cases h
  · cases h
    exact hop

theorem checkBounds_mayRaise {m : Nat} {x : Int} (hop : op = .mov) (h : checkBounds m x = .error f) :
    mayRaise op f := by
  rw [checkBounds] at h
  split at h
  · cases h
  · cases h
    exact hop

theorem ea_mayRaise {base : Option Nat} {disp : Int} (hop : op = .mov) (h : ea base disp s = .error f) :
    mayRaise op f := by
  cases base with
  | none => exact checkBounds_mayRaise hop h
  | some i =>
    cases hi : checkIndex i with
    | ok r => exact checkBounds_mayRaise hop (by simpa [ea, hi] using h)
    | error e =>
      obtain rfl : e = f := by simpa [ea, hi] using h
      exact checkIndex_mayRaise (hop ▸ rfl) hi

theorem resolvePlace_mayRaise {slot : Fin 2} (hop : op.isBranch = false) (hmem : a.kind = .memory → op = .mov)
    (h : resolvePlace op slot a s = .error f) : mayRaise op f := by
  cases a with
  | none | immediate =>
    cases h
    rfl
  | register i hf =>
    cases hi : checkIndex i with
    | ok r => simp [resolvePlace, hi] at h
    | error e =>
      obtain rfl : e = f := by simpa [resolvePlace, hi] using h
      exact checkIndex_mayRaise hop hi
  | memory base disp =>
    cases he : ea base disp s with
    | ok x => simp [resolvePlace, he] at h
    | error e =>
      obtain rfl : e = f := by simpa [resolvePlace, he] using h
      exact ea_mayRaise (hmem rfl) he

/-- What resolving a source can do: an immediate is one, any other operand resolves as the place it names. -/
theorem resolveSource_cases (op : OpKind) (slot : Fin 2) (o : Operand) (s : State) :
    (∃ v, o = .immediate v) ∨
      (∃ p, resolvePlace op slot o s = .ok p ∧ resolveSource op slot o s = .ok (.place p)) ∨
      ∃ f, resolvePlace op slot o s = .error f ∧ resolveSource op slot o s = .error f := by
  cases hp : resolvePlace op slot o s with
  | ok p =>
    cases o with
    | immediate v => exact .inl ⟨v, rfl⟩
    | none | register | memory => exact .inr (.inl ⟨p, rfl, by simp only [resolveSource, hp]⟩)
  | error f =>
    cases o with
    | immediate v => exact .inl ⟨v, rfl⟩
    | none | register | memory => exact .inr (.inr ⟨f, rfl, by simp only [resolveSource, hp]⟩)

theorem resolvePlace_of_resolveSource_error {slot : Fin 2} (h : resolveSource op slot a s = .error f) :
    resolvePlace op slot a s = .error f := by
  obtain ⟨v, rfl⟩ | ⟨p, -, hs⟩ | ⟨e, hp, hs⟩ := resolveSource_cases op slot a s
  · cases h
  · cases hs.symm.trans h
  · cases hs.symm.trans h
    exact hp

/-- Only MOV admits a Memory operand (R81). -/
theorem eq_mov_of_memory (h : checkShape op a b = .ok ()) (hk : a.kind = .memory ∨ b.kind = .memory) :
    op = .mov := by
  rw [checkShape_ok_iff] at h
  cases op with
  | mov => rfl
  | _ => obtain hk | hk := hk <;> simp [shapeTable, hk] at h

theorem prepareTwo_mayRaise (hop : op.isBranch = false) (h : prepareTwo op len a b s = .error f) :
    mayRaise op f := by
  simp only [prepareTwo, bind_eq_error_iff, reduceCtorEq, and_false, exists_false, or_false] at h
  obtain h | ⟨u, -, h | ⟨⟨⟩, hshape, h | ⟨p, -, h⟩⟩⟩ := h
  · exact advance_mayRaise h
  · exact checkShape_mayRaise h
  · exact resolvePlace_mayRaise hop (fun hk => eq_mov_of_memory hshape (.inl hk)) h
  · exact resolvePlace_mayRaise hop (fun hk => eq_mov_of_memory hshape (.inr hk))
      (resolvePlace_of_resolveSource_error h)

/-- What follows the preparation of a two-operand instruction raises no fault of its own. -/
theorem mayRaise_of_prepareTwo {g : State × Place × Source → Except Fault State} (hg : ∀ v, ∃ t, g v = .ok t)
    (hop : op.isBranch = false) (h : (prepareTwo op len a b s >>= g) = .error f) : mayRaise op f := by
  obtain h | ⟨v, -, h⟩ := bind_eq_error_iff.mp h
  · exact prepareTwo_mayRaise hop h
  · obtain ⟨t, ht⟩ := hg v
    cases ht.symm.trans h

theorem prepareBranch_mayRaise (h : prepareBranch op len a b s = .error f) : mayRaise op f := by
  simp only [prepareBranch, bind_eq_error_iff, reduceCtorEq, and_false, exists_false, or_false] at h
  obtain h | ⟨u, -, h | ⟨⟨⟩, -, h⟩⟩ := h
  · exact advance_mayRaise h
  · exact checkShape_mayRaise h
  · cases a with
    | immediate => cases h
    | none | register | memory =>
      cases h
      rfl

theorem applyDisp_mayRaise {disp : Int} (hop : op.isBranch = true) (h : applyDisp disp s = .error f) :
    mayRaise op f := by
  obtain he | ⟨he, -⟩ | ⟨he, -⟩ := applyDisp_cases disp s
  · cases he.symm.trans h
  · cases he.symm.trans h
    exact hop
  · cases he.symm.trans h
    trivial

theorem decrementCounter_mayRaise (hop : op.isLoop = true) (h : decrementCounter s = .error f) : mayRaise op f := by
  obtain he | ⟨he, -⟩ := decrementCounter_cases s
  · cases he.symm.trans h
  · cases he.symm.trans h
    exact hop

theorem condJump_mayRaise {mask : Word} {pol : Bool} (hop : op.isBranch = true)
    (h : condJump op mask pol len a b s = .error f) : mayRaise op f := by
  rw [condJump, bind_eq_error_iff] at h
  obtain h | ⟨⟨u, disp⟩, -, h⟩ := h
  · exact prepareBranch_mayRaise h
  · simp only at h
    split at h
    · exact applyDisp_mayRaise hop h
    · cases h

theorem loopStep_mayRaise {zpol : Bool} (hop : op.isBranch = true) (hl : op.isLoop = true)
    (h : loopStep op zpol len a b s = .error f) : mayRaise op f := by
  rw [loopStep, bind_eq_error_iff] at h
  obtain h | ⟨⟨u, disp⟩, -, h⟩ := h
  · exact prepareBranch_mayRaise h
  · simp only [bind_eq_error_iff] at h
    obtain h | ⟨v, -, h⟩ := h
    · exact decrementCounter_mayRaise hl h
    · split at h
      · exact applyDisp_mayRaise hop h
      · cases h

end MayRaise

theorem OpKind.not_branch_of_isAlu {op : OpKind} (h : op.isAlu = true) : op.isBranch = false := by
  cases op with
  | add | sub | cmp => rfl
  | _ => cases h

/-- Settles O21: a two-operand instruction faults in its preparation only; a branch there, at its counter or at its
displacement. -/
theorem faultsByFamily : Obligations.FaultsByFamily := by
  intro i s f h
  obtain ⟨m, hm, he⟩ := exec_meaning i
  have hf := outcome_fault_iff.mp ((he s).symm.trans h)
  cases hm with
  | wordMove hop | byteMove hop =>
    rw [hop]
    exact mayRaise_of_prepareTwo (fun _ => ⟨_, rfl⟩) rfl hf
  | wordAlu hop | byteAlu hop =>
    exact mayRaise_of_prepareTwo (fun _ => ⟨_, rfl⟩) (OpKind.not_branch_of_isAlu hop) hf
  | jump hop => exact condJump_mayRaise hop hf
  | loop hop hl => exact loopStep_mayRaise hop hl hf

end Sys2Proof.Machine
end

section
/-! PROOFS. The completion of each instruction on the shapes R81 admits: MOV (41_move.md), ADD, SUB and CMP
(42_alu.md section 2), the jumps and the loops (43_control_flow.md). -/

namespace Sys2Proof.Machine

/-! ### Frames of a written state -/

section Written

variable {len : Nat} {s u : State}

/-- The advance alone writes no register but `pc`. -/
theorem noRegister_advanced (len : Nat) (s : State) : NoRegister len s (s.advanced len) := by
  refine ⟨fun r hpc => ?_, ⟨rfl, rfl, rfl, rfl⟩, State.pc_advanced len s⟩
  rw [State.reg_advanced, State.regAfter_ne len s hpc]

theorem sameMemory_advanced (len : Nat) (s : State) : SameMemory s (s.advanced len) := fun _ => rfl

theorem NoRegister.writeFlags {w : Nat} (h : NoRegister len s u) (x : AluResult w) :
    NoRegister len s (u.writeFlags x) := h

theorem NoRegister.setMemByte (h : NoRegister len s u) (a : Nat) (b : Byte) : NoRegister len s (u.setMemByte a b) := h

theorem NoRegister.setMemWord (h : NoRegister len s u) (a : Nat) (v : Word) : NoRegister len s (u.setMemWord a v) := h

/-- One register written on top of a state that differs in none. -/
theorem NoRegister.setReg (h : NoRegister len s u) (hm : SameMemory s u) (d : Slot) (v : Word) :
    OnlyRegister len d s (u.setReg d v) := by
  obtain ⟨hregs, hhost, hpc⟩ := h
  refine ⟨fun r hd hr => ?_, hm, hhost, fun hd => ?_⟩
  · rw [State.reg_setReg_ne _ _ _ _ hd, hregs r hr]
  · rw [State.pc, State.reg_setReg_ne _ _ _ _ hd.symm]
    exact hpc

/-- The other half of a half written after the advance. -/
theorem State.half_other_setHalf_of_reg {d : Slot} {w : Word} (h : u.reg d = w) (k : Half) (b : Byte) :
    (u.setHalf d k b).half d k.other = halfOf k.other w := by
  rw [State.half_setHalf_other, State.half, h]

end Written

/-! ### MOV -/

section Mov

variable {s : State} {len a : Nat} {base : Option Slot} {disp : Int}

/-- An admitted address, as the natural number that the Address Resolver gives. -/
theorem ea_memOp_of_address (haddr : s.addressOf len base disp = a) (hin : s.InMemory a) :
    ea (base.map Slot.index) disp (s.advanced len) = .ok a := by
  rw [ea_memOp, haddr, checkBounds_in hin, Int.toNat_natCast]

theorem resolveSource_memOp_of_address (haddr : s.addressOf len base disp = a) (hin : s.InMemory a) :
    resolveSource .mov 1 (memOp base disp) (s.advanced len) = .ok (.place (.addr a)) :=
  resolveSource_memory (ea_memOp_of_address haddr hin)

end Mov

/-- Settles O28: the slot written after the advance, with the value of a source that resolves. -/
theorem movWordIntoRegister : Obligations.MovWordIntoRegister := by
  intro s len d h hadv
  have hframe (v : Word) := (noRegister_advanced len s).setReg (sameMemory_advanced len s) d v
  refine ⟨fun src => ?_, fun base disp a haddr hin => ?_⟩
  · obtain ⟨r, hr, hword, -⟩ := resolveSource_regOrImm .mov src len s
    refine ⟨_, execMovW_reg hadv src.kind_operand_ne_none hr, ?_, rfl, hframe _⟩
    rw [State.reg_setReg_same, hword]
  · refine ⟨_, execMovW_reg hadv (kind_memOp_ne_none _ _) (resolveSource_memOp_of_address haddr hin), ?_, rfl,
      hframe _⟩
    exact State.reg_setReg_same _ d _

/-- Settles O29: the half written after the advance, with the byte of a source that resolves. -/
theorem movByteIntoRegister : Obligations.MovByteIntoRegister := by
  intro s len d h hadv
  have hframe (b : Byte) : OnlyRegister len d s ((s.advanced len).setHalf d h b) :=
    (noRegister_advanced len s).setReg (sameMemory_advanced len s) d _
  have hother (b : Byte) := State.half_other_setHalf_of_reg (State.reg_advanced len s d) h b
  refine ⟨fun src => ?_, fun base disp a haddr hin => ?_⟩
  · obtain ⟨r, hr, -, hbyte⟩ := resolveSource_regOrImm .mov src len s
    refine ⟨_, execMovB_reg hadv src.kind_operand_ne_none hr, ?_, hother _, rfl, hframe _⟩
    rw [State.half_setHalf_same, hbyte]
  · refine ⟨_, execMovB_reg hadv (kind_memOp_ne_none _ _) (resolveSource_memOp_of_address haddr hin), ?_,
      hother _, rfl, hframe _⟩
    exact State.half_setHalf_same _ d h _

/-- Settles O30: the two bytes stored after the advance, the source read in the state after the advance. -/
theorem movWordIntoMemory : Obligations.MovWordIntoMemory := by
  intro s len base disp a hadv haddr hin
  have hea := ea_memOp_of_address haddr hin
  have hregs (v : Word) := (noRegister_advanced len s).setMemWord a v
  refine ⟨fun src => ?_, fun base' disp' a' haddr' hin' => ?_⟩
  · obtain ⟨r, hr, hword, -⟩ := resolveSource_regOrImm .mov src len s
    refine ⟨_, execMovW_mem hadv src.kind_operand_ne_none hea hr, ?_, ?_,
      fun q hq hq1 => memByte_setMemWord_ne _ hq hq1, rfl, hregs _⟩
    · rw [memByte_setMemWord_low, hword]
    · rw [memByte_setMemWord_high, hword]
  · refine ⟨_, execMovW_mem hadv (kind_memOp_ne_none _ _) hea (resolveSource_memOp_of_address haddr' hin'), ?_, ?_,
      fun q hq hq1 => memByte_setMemWord_ne _ hq hq1, rfl, hregs _⟩
    · rw [memByte_setMemWord_low]
      exact loByte_joinBytes _ _
    · rw [memByte_setMemWord_high]
      exact hiByte_joinBytes _ _

/-- Settles O31: the byte stored after the advance. -/
theorem movByteIntoMemory : Obligations.MovByteIntoMemory := by
  intro s len base disp a hadv haddr hin
  have hea := ea_memOp_of_address haddr hin
  have hregs (b : Byte) := (noRegister_advanced len s).setMemByte a b
  refine ⟨fun src => ?_, fun base' disp' a' haddr' hin' => ?_⟩
  · obtain ⟨r, hr, -, hbyte⟩ := resolveSource_regOrImm .mov src len s
    refine ⟨_, execMovB_mem hadv src.kind_operand_ne_none hea hr, ?_, fun q hq => memByte_setMemByte_ne _ hq, rfl,
      hregs _⟩
    rw [memByte_setMemByte_same, hbyte]
  · refine ⟨_, execMovB_mem hadv (kind_memOp_ne_none _ _) hea (resolveSource_memOp_of_address haddr' hin'), ?_,
      fun q hq => memByte_setMemByte_ne _ hq, rfl, hregs _⟩
    exact memByte_setMemByte_same _ a _

/-! ### The four flags -/

section Flags

variable {w : Nat} {s t : State}

theorem State.zf_of_flags {f : Word} {x : AluResult w} (h : t.flags = mergeFlags f x) : t.zf = x.zf := by
  rw [State.zf, h, mergeFlags_zf]

theorem State.of_of_flags {f : Word} {x : AluResult w} (h : t.flags = mergeFlags f x) : t.of = x.of := by
  rw [State.of, h, mergeFlags_of]

/-- The flag write, as the frame of FLAGS (R137). -/
theorem flagsAre_of_flags {x : AluResult w} (h : t.flags = mergeFlags s.flags x) :
    FlagsAre s t x.zf x.sf x.pf x.of :=
  ⟨State.zf_of_flags h, State.sf_of_flags h, State.pf_of_flags h, State.of_of_flags h,
    fun _ hn => by rw [h, mergeFlags_unnamed _ _ hn]⟩

theorem flagsAre_add_word {a b : Word} (h : t.flags = mergeFlags s.flags (aluAdd a b)) :
    FlagsAre s t (decide (a + b = 0#16)) ((a + b).getLsbD 15) (evenOnes (loByte (a + b)))
      (decide (0xFFFF < a.toNat + b.toNat)) := by
  rw [← aluAdd_zf, ← aluAdd_pf_word]
  exact aluAdd_sf a b ▸ aluAdd_of a b ▸ flagsAre_of_flags h

theorem flagsAre_add_byte {a b : Byte} (h : t.flags = mergeFlags s.flags (aluAdd a b)) :
    FlagsAre s t (decide (a + b = 0#8)) ((a + b).getLsbD 7) (evenOnes (a + b))
      (decide (0xFF < a.toNat + b.toNat)) := by
  rw [← aluAdd_zf, ← aluAdd_pf_byte]
  exact aluAdd_sf a b ▸ aluAdd_of a b ▸ flagsAre_of_flags h

theorem flagsAre_sub_word {a b : Word} (h : t.flags = mergeFlags s.flags (aluSub a b)) :
    FlagsAre s t (decide (a = b)) ((a - b).getLsbD 15) (evenOnes (loByte (a - b))) (decide (a.toNat < b.toNat)) := by
  rw [← aluSub_zf, ← aluSub_pf_word, ← aluSub_of]
  exact aluSub_sf a b ▸ flagsAre_of_flags h

theorem flagsAre_sub_byte {a b : Byte} (h : t.flags = mergeFlags s.flags (aluSub a b)) :
    FlagsAre s t (decide (a = b)) ((a - b).getLsbD 7) (evenOnes (a - b)) (decide (a.toNat < b.toNat)) := by
  rw [← aluSub_zf, ← aluSub_pf_byte, ← aluSub_of]
  exact aluSub_sf a b ▸ flagsAre_of_flags h

end Flags

/-! ### ADD, SUB and CMP -/

section Alu

variable {op : OpKind} {len : Nat} {s : State}

/-- A word operation that writes back completes on every admitted form. -/
theorem arithW_completes (alu : Word → Word → AluResult 16) (d : Slot) (h : Half) (src : RegOrImm)
    (hop : op.isAlu = true) (hadv : s.CanAdvance len) :
    ∃ t, arithW op alu true len (regOp d h) src.operand s = .ok t ∧
      t.reg d = (alu (s.regAfter len d) (src.word len s)).r ∧
      t.flags = mergeFlags s.flags (alu (s.regAfter len d) (src.word len s)) ∧ OnlyRegister len d s t := by
  have ht := arithW_regOrImm (alu := alu) (wb := true) (d := d) (h := h) (src := src) hop hadv
  exact ⟨_, ht, arithW_writeBack hop ht, arithW_flags hop ht,
    ((noRegister_advanced len s).writeFlags _).setReg (sameMemory_advanced len s) d _⟩

/-- A byte operation that writes back completes on every admitted form. -/
theorem arithB_completes (alu : Byte → Byte → AluResult 8) (d : Slot) (h : Half) (src : RegOrImm)
    (hop : op.isAlu = true) (hadv : s.CanAdvance len) :
    ∃ t, arithB op alu true len (regOp d h) src.operand s = .ok t ∧
      t.half d h = (alu (halfOf h (s.regAfter len d)) (src.byte len s)).r ∧
      t.half d h.other = halfOf h.other (s.regAfter len d) ∧
      t.flags = mergeFlags s.flags (alu (halfOf h (s.regAfter len d)) (src.byte len s)) ∧ OnlyRegister len d s t := by
  have ht := arithB_regOrImm (alu := alu) (wb := true) (d := d) (h := h) (src := src) hop hadv
  exact ⟨_, ht, arithB_writeBack hop ht, State.half_other_setHalf_of_reg (State.reg_advanced len s d) h _,
    arithB_flags hop ht, ((noRegister_advanced len s).writeFlags _).setReg (sameMemory_advanced len s) d _⟩

end Alu

/-- Settles O33: the result and the flags are those of `aluAdd`. -/
theorem addWord : Obligations.AddWord := by
  intro s len d h src hadv
  obtain ⟨t, ht, hreg, hflags, hframe⟩ := arithW_completes (op := .add) aluAdd d h src rfl hadv
  exact ⟨t, outcome_next_iff.mpr ht, hreg.trans (aluAdd_r _ _), flagsAre_add_word hflags, hframe⟩

/-- Settles O34: the result and the flags are those of `aluAdd`. -/
theorem addByte : Obligations.AddByte := by
  intro s len d h src hadv
  obtain ⟨t, ht, hhalf, hother, hflags, hframe⟩ := arithB_completes (op := .add) aluAdd d h src rfl hadv
  exact ⟨t, outcome_next_iff.mpr ht, hhalf.trans (aluAdd_r _ _), hother, flagsAre_add_byte hflags, hframe⟩

/-- Settles O35: the result and the flags are those of `aluSub`. -/
theorem subWord : Obligations.SubWord := by
  intro s len d h src hadv
  obtain ⟨t, ht, hreg, hflags, hframe⟩ := arithW_completes (op := .sub) aluSub d h src rfl hadv
  exact ⟨t, outcome_next_iff.mpr ht, hreg.trans (aluSub_r _ _), flagsAre_sub_word hflags, hframe⟩

/-- Settles O36: the result and the flags are those of `aluSub`. -/
theorem subByte : Obligations.SubByte := by
  intro s len d h src hadv
  obtain ⟨t, ht, hhalf, hother, hflags, hframe⟩ := arithB_completes (op := .sub) aluSub d h src rfl hadv
  exact ⟨t, outcome_next_iff.mpr ht, hhalf.trans (aluSub_r _ _), hother, flagsAre_sub_byte hflags, hframe⟩

/-- Settles O37: the flags are those of `aluSub`, written after the advance. -/
theorem cmpWord : Obligations.CmpWord := by
  intro s len d h src hadv
  have ht := arithW_regOrImm (op := .cmp) (alu := aluSub) (wb := false) (d := d) (h := h) (src := src) rfl hadv
  exact ⟨_, outcome_next_iff.mpr ht, flagsAre_sub_word (arithW_flags rfl ht),
    (noRegister_advanced len s).writeFlags _, sameMemory_advanced len s⟩

/-- Settles O38: the flags are those of `aluSub`, written after the advance. -/
theorem cmpByte : Obligations.CmpByte := by
  intro s len d h src hadv
  have ht := arithB_regOrImm (op := .cmp) (alu := aluSub) (wb := false) (d := d) (h := h) (src := src) rfl hadv
  exact ⟨_, outcome_next_iff.mpr ht, flagsAre_sub_byte (arithB_flags rfl ht),
    (noRegister_advanced len s).writeFlags _, sameMemory_advanced len s⟩

/-! ### The displacement rule -/

section Branch

variable {op : OpKind} {len : Nat} {disp : Int} {s : State}

/-- A taken branch lands by the displacement rule (R150). -/
theorem lands_applyDisp (disp : Int) (s : State) : Lands disp s (outcome (applyDisp disp s)) := by
  refine ⟨fun h => ?_, fun t ht hfits => ?_, fun t ht hover => ⟨fun hmode => ?_, fun hmode => ?_⟩⟩
  · rw [applyDisp_underflow h, outcome_error]
  · rw [applyDisp_fits (by omega) (by omega), ht, BitVec.ofInt_natCast, outcome_ok]
  · rw [applyDisp_overflow (by omega) hmode, ht, outcome_error]
  · have hmod : BitVec.ofNat 16 t = BitVec.ofNat 16 (t % 65536) := by
      apply BitVec.eq_of_toNat_eq
      simp
    rw [applyDisp_wrap (by omega) hmode, ht, BitVec.ofInt_natCast, outcome_ok, hmod]

/-- A test that lands or ends in the state it is made in (R151, R161). -/
theorem branches_ite {taken c : Prop} [Decidable c] (h : taken ↔ c) (disp : Int) (s : State) :
    Branches taken disp s (outcome (if c then applyDisp disp s else .ok s)) := by
  refine ⟨fun ht => ?_, fun ht => ?_⟩
  · rw [if_pos (h.mp ht)]
    exact lands_applyDisp disp s
  · rw [if_neg (mt h.mpr ht), outcome_ok]

/-- A jump whose advance and shape are good makes its test in the state after the advance. -/
theorem condJump_branches {taken : Prop} {mask : Word} {pol : Bool} (hadv : s.CanAdvance len)
    (hshape : checkShape op (.immediate disp) .none = .ok ()) (h : taken ↔ flagSet mask s.flags = pol) :
    Branches taken disp (s.advanced len) (outcome (condJump op mask pol len (.immediate disp) .none s)) := by
  simp only [condJump, prepareBranch_ok hadv hshape, bind, Except.bind]
  exact branches_ite h disp (s.advanced len)

/-- A loop whose advance and shape are good and whose counter can be decremented makes its test in the state after
the decrement. -/
theorem loopStep_branches {taken : Prop} {zpol : Bool} (hadv : s.CanAdvance len)
    (hshape : checkShape op (.immediate disp) .none = .ok ())
    (hcounter : s.counter ≠ 0#16 ∨ s.params.counterUnderflow = .wrap)
    (h : taken ↔ s.counter - 1#16 ≠ 0#16 ∧ flagSet maskZF s.flags = zpol) :
    Branches taken disp ((s.advanced len).setCounter (s.counter - 1#16))
      (outcome (loopStep op zpol len (.immediate disp) .none s)) := by
  have hd : decrementCounter (s.advanced len) = .ok ((s.advanced len).setCounter (s.counter - 1#16)) := by
    obtain hd | ⟨-, hzero, hmode⟩ := decrementCounter_cases (s.advanced len)
    · rwa [State.counter_advanced] at hd
    · rw [State.counter_advanced] at hzero
      obtain hne | hwrap := hcounter
      · exact absurd hzero hne
      · cases hmode.symm.trans hwrap
  simp only [loopStep, prepareBranch_ok hadv hshape, hd, bind, Except.bind, State.counter_setCounter]
  exact branches_ite h disp _

/-- A loop whose counter is 0 in fault mode, after a good advance and shape (R160). -/
theorem loopStep_underflow {zpol : Bool} (hadv : s.CanAdvance len)
    (hshape : checkShape op (.immediate disp) .none = .ok ()) (hzero : s.counter = 0#16)
    (hmode : s.params.counterUnderflow = .fault) :
    loopStep op zpol len (.immediate disp) .none s =
      .error (.counterUnderflow (Slot.index (counterSlot s.params))) := by
  have hd : decrementCounter (s.advanced len) = .error (.counterUnderflow (Slot.index (counterSlot s.params))) := by
    simp [decrementCounter, State.counter_advanced, hzero, hmode]
  simp only [loopStep, prepareBranch_ok hadv hshape, hd, bind, Except.bind]

/-- `pc` after a jump that completes. -/
theorem condJump_pc {mask : Word} {pol : Bool} {b : Operand} {t : State}
    (h : condJump op mask pol len (.immediate disp) b s = .ok t) :
    t.pc = if flagSet mask s.flags = pol then s.nextPc len + BitVec.ofInt 16 disp else s.nextPc len := by
  obtain ⟨-, _, ⟨⟩, ⟨htaken, happly⟩ | ⟨htaken, rfl⟩⟩ := condJump_next h
  · rw [if_pos htaken, applyDisp_next happly, State.pc_setPc, ofInt_toNat_add, State.pc_advanced]
  · rw [if_neg htaken, State.pc_advanced]

end Branch

/-- Settles O45: the two tests of ZF, made after the advance, which leaves FLAGS. -/
theorem jumpsOnZeroFlag : Obligations.JumpsOnZeroFlag := by
  intro s wide len disp hadv
  refine ⟨condJump_branches hadv rfl ?_, condJump_branches hadv rfl ?_⟩ <;> rw [flagSet_maskZF, State.zf]

/-- Settles O46: the two tests of PF, made after the advance, which leaves FLAGS. -/
theorem jumpsOnParityFlag : Obligations.JumpsOnParityFlag := by
  intro s wide len disp hadv
  refine ⟨condJump_branches hadv rfl ?_, condJump_branches hadv rfl ?_⟩ <;> rw [flagSet_maskPF, State.pf]

/-- Settles O47: the two tests of OF, made after the advance, which leaves FLAGS. -/
theorem jumpsOnOverflowFlag : Obligations.JumpsOnOverflowFlag := by
  intro s wide len disp hadv
  refine ⟨condJump_branches hadv rfl ?_, condJump_branches hadv rfl ?_⟩ <;> rw [flagSet_maskOF, State.of]

/-- Settles O48: the test of the new counter and of ZF = 1, made after the decrement. -/
theorem loopzDecrementsThenBranches : Obligations.LoopzDecrementsThenBranches := by
  intro s wide len disp hadv hcounter
  refine loopStep_branches hadv rfl hcounter ?_
  rw [flagSet_maskZF, State.zf, State.counter]

/-- Settles O49: the test of the new counter and of ZF = 0, made after the decrement. -/
theorem loopnzDecrementsThenBranches : Obligations.LoopnzDecrementsThenBranches := by
  intro s wide len disp hadv hcounter
  refine loopStep_branches hadv rfl hcounter ?_
  rw [flagSet_maskZF, State.zf, State.counter]

/-- Settles O50: the decrement comes before the test and the displacement. -/
theorem loopCounterUnderflow : Obligations.LoopCounterUnderflow := by
  intro s wide len disp hadv hzero hmode mk hmk
  simp only [loopForms, List.mem_cons, List.not_mem_nil, or_false] at hmk
  obtain rfl | rfl := hmk <;> exact outcome_fault_iff.mpr (loopStep_underflow hadv rfl hzero hmode)

/-! ### A jump after a compare -/

section AfterCompare

variable {t u : State} {wide : Bool} {l : Nat} {disp : Int}

theorem jb_pc (h : exec (.jb wide l (.immediate disp) .none) t = .next u) :
    u.pc = if t.of = true then t.nextPc l + BitVec.ofInt 16 disp else t.nextPc l := by
  rw [condJump_pc (outcome_next_iff.mp h), flagSet_maskOF, State.of]

theorem je_pc (h : exec (.je wide l (.immediate disp) .none) t = .next u) :
    u.pc = if t.zf = true then t.nextPc l + BitVec.ofInt 16 disp else t.nextPc l := by
  rw [condJump_pc (outcome_next_iff.mp h), flagSet_maskZF, State.zf]

/-- The two jumps after FLAGS of a subtraction: OF is its borrow and ZF the equality of its operands. -/
theorem jumps_after_sub {w : Nat} {f : Word} {a b : BitVec w} (hflags : t.flags = mergeFlags f (aluSub a b)) :
    (exec (.jb wide l (.immediate disp) .none) t = .next u →
      u.pc = if a.toNat < b.toNat then t.nextPc l + BitVec.ofInt 16 disp else t.nextPc l) ∧
    (exec (.je wide l (.immediate disp) .none) t = .next u →
      u.pc = if a = b then t.nextPc l + BitVec.ofInt 16 disp else t.nextPc l) := by
  have hof : t.of = decide (a.toNat < b.toNat) := (State.of_of_flags hflags).trans (aluSub_of a b)
  have hzf : t.zf = decide (a = b) := (State.zf_of_flags hflags).trans (aluSub_zf a b)
  exact ⟨fun h => by simp only [jb_pc h, hof, decide_eq_true_eq],
    fun h => by simp only [je_pc h, hzf, decide_eq_true_eq]⟩

end AfterCompare

/-- Settles O44: the FLAGS a compare leaves are those of the subtraction. -/
theorem belowAfterCompare : Obligations.BelowAfterCompare :=
  fun _ _ _ _ _ _ _ _ _ _ _ => ⟨fun h => jumps_after_sub (subW_or_cmpW_flags (.inr h)),
    fun h => jumps_after_sub (subB_or_cmpB_flags (.inr h))⟩

end Sys2Proof.Machine
end

section
/-! PROOFS. What an instruction does not look at (10_state.md section 6): a change of the state that its meaning does
not see goes through it to the next state. FLAGS are such for MOV (41_move.md), Memory for every other instruction
(20_memory.md section 1), and a register for one that does not name it (10_state.md section 3). -/

namespace Sys2Proof.Machine

/-! ### What an instruction touches -/

/-- The registers an instruction may read or write, at given parameters: `pc`, those it names, a loop's counter. -/
def Touches (i : Instr) (P : Params) (r : Slot) : Prop :=
  r = ipSlot ∨ i.slot0.names (Slot.index r) ∨ i.slot1.names (Slot.index r) ∨
    i.op.isLoop = true ∧ r = counterSlot P

/-- The places an instruction may read or write: touched registers, and for MOV all of Memory (R81). -/
def Reaches (i : Instr) (P : Params) : Place → Prop
  | .reg r _ => Touches i P r
  | .addr _ => i.op = .mov

/-- A place that an operand of the instruction resolves to is one that it reaches. -/
theorem reaches_of_resolvePlace {i : Instr} {P : Params} {s : State} {slot : Fin 2} {o : Operand} {p : Place}
    (ho : ∀ r : Slot, o.names (Slot.index r) → Touches i P r) (hmem : o.kind = .memory → i.op = .mov)
    (h : resolvePlace i.op slot o s = .ok p) : Reaches i P p := by
  obtain ⟨r, hf, rfl, rfl⟩ | ⟨base, disp, a, rfl, -, rfl⟩ := resolvePlace_ok_cases h
  · exact ho r rfl
  · exact hmem rfl

theorem resolvePlace_of_resolveSource_place {op : OpKind} {slot : Fin 2} {o : Operand} {s : State} {p : Place}
    (h : resolveSource op slot o s = .ok (.place p)) : resolvePlace op slot o s = .ok p := by
  obtain ⟨v, rfl⟩ | ⟨q, hq, hs⟩ | ⟨f, -, hs⟩ := resolveSource_cases op slot o s
  · cases h
  · cases hs.symm.trans h
    exact hq
  · cases hs.symm.trans h

/-- The places that a two-operand instruction has prepared are ones that it reaches. -/
theorem reaches_of_prepareTwo {i : Instr} (P : Params) {s t : State} {p : Place} {src : Source}
    (h : prepareTwo i.op i.len i.slot0 i.slot1 s = .ok (t, p, src)) :
    Reaches i P p ∧ ∀ q, src = .place q → Reaches i P q := by
  obtain ⟨-, -, hshape, hp, hsrc⟩ := prepareTwo_next h
  refine ⟨reaches_of_resolvePlace (fun r hr => .inr (.inl hr)) (fun hk => eq_mov_of_memory hshape (.inl hk)) hp, ?_⟩
  rintro q rfl
  exact reaches_of_resolvePlace (fun r hr => .inr (.inr (.inl hr))) (fun hk => eq_mov_of_memory hshape (.inr hk))
    (resolvePlace_of_resolveSource_place hsrc)

/-- A change of the state that an instruction does not see: it keeps what the instruction may read, and it can be made
before or after each write the instruction may make. -/
structure Inert (i : Instr) (P : Params) (g : State → State) : Prop where
  params (s : State) : (g s).params = s.params
  reg (s : State) {r : Slot} (hr : Touches i P r) : (g s).reg r = s.reg r
  setReg (s : State) {r : Slot} (hr : Touches i P r) (v : Word) : (g s).setReg r v = g (s.setReg r v)
  flags (hop : i.op ≠ .mov) (s : State) : (g s).flags = s.flags
  setFlags (hop : i.op ≠ .mov) (s : State) (f : Word) : (g s).setFlags f = g (s.setFlags f)
  memByte (hop : i.op = .mov) (s : State) (a : Nat) : (g s).memByte a = s.memByte a
  setMemByte (hop : i.op = .mov) (s : State) (a : Nat) (b : Byte) : (g s).setMemByte a b = g (s.setMemByte a b)

/-- A sequence whose parts pass a change through passes it through. -/
theorem bind_eq_map {α β : Type} {x' x : Except Fault α} {f : α → α} {k' k : α → Except Fault β}
    {g : β → β} (hx : x' = x.map f) (hk : ∀ v, x = .ok v → k' (f v) = (k v).map g) :
    (x' >>= k') = (x >>= k).map g := by
  subst hx
  cases x with
  | error e => rfl
  | ok v => exact hk v rfl

theorem mapNext_outcome (g : State → State) (r : Except Fault State) :
    mapNext g (outcome r) = outcome (r.map g) := by
  cases r <;> rfl

section Through

variable {i : Instr} {P : Params} {g : State → State} (hg : Inert i P g) {s : State}
include hg

/-! ### The shared operations -/

theorem Inert.pc_eq (s : State) : (g s).pc = s.pc := hg.reg s (.inl rfl)

theorem Inert.setPc_comm (s : State) (v : Word) : (g s).setPc v = g (s.setPc v) := hg.setReg s (.inl rfl) v

theorem Inert.landPc_map (t : Int) (s : State) : landPc t (g s) = (landPc t s).map g := by
  simp only [landPc, hg.params, hg.setPc_comm]
  split
  · cases s.params.ipOverflow <;> rfl
  · rfl

theorem Inert.advance_map (len : Nat) (s : State) : advance len (g s) = (advance len s).map g := by
  rw [advance, advance, hg.pc_eq, hg.landPc_map]

theorem Inert.applyDisp_map (disp : Int) (s : State) : applyDisp disp (g s) = (applyDisp disp s).map g := by
  rw [applyDisp, applyDisp, hg.pc_eq]
  split
  · rfl
  · exact hg.landPc_map _ s

theorem Inert.ea_eq {base : Option Nat} {disp : Int}
    (hbase : ∀ r : Slot, base = some (Slot.index r) → Touches i P r) (s : State) :
    ea base disp (g s) = ea base disp s := by
  cases base with
  | none => simp only [ea, hg.params]
  | some j =>
    cases hj : checkIndex j with
    | error f => simp only [ea, hj]
    | ok r =>
      obtain rfl := checkIndex_ok hj
      simp only [ea, hj, hg.params, hg.reg s (hbase r rfl)]

/-- An operand resolves to the same place before and after the change. -/
theorem Inert.resolvePlace_eq {op : OpKind} {slot : Fin 2} {o : Operand}
    (ho : ∀ r : Slot, o.names (Slot.index r) → Touches i P r) (s : State) :
    resolvePlace op slot o (g s) = resolvePlace op slot o s := by
  cases o with
  | none | immediate | register => rfl
  | memory base disp =>
    have hea : ea base disp (g s) = ea base disp s := by
      refine hg.ea_eq (fun r hr => ho r ?_) s
      subst hr
      rfl
    simp only [resolvePlace, hea]

theorem Inert.resolveSource_eq {op : OpKind} {slot : Fin 2} {o : Operand}
    (ho : ∀ r : Slot, o.names (Slot.index r) → Touches i P r) (s : State) :
    resolveSource op slot o (g s) = resolveSource op slot o s := by
  have hp := hg.resolvePlace_eq (op := op) (slot := slot) ho s
  cases o with
  | immediate => rfl
  | none | register | memory => simp only [resolveSource, hp]

/-! ### Reads and writes of a place -/

theorem Inert.readPlaceW_eq {p : Place} (hp : Reaches i P p) (s : State) : readPlaceW p (g s) = readPlaceW p s := by
  cases p with
  | reg r h => exact hg.reg s hp
  | addr a => simp only [readPlaceW, State.memWord, hg.memByte hp]

theorem Inert.readPlaceB_eq {p : Place} (hp : Reaches i P p) (s : State) : readPlaceB p (g s) = readPlaceB p s := by
  cases p with
  | reg r h => simp only [readPlaceB, State.half, hg.reg s hp]
  | addr a => exact hg.memByte hp s a

theorem Inert.readW_eq {src : Source} (hsrc : ∀ p, src = .place p → Reaches i P p) (s : State) :
    readW src (g s) = readW src s := by
  cases src with
  | imm v => rfl
  | place p => exact hg.readPlaceW_eq (hsrc p rfl) s

theorem Inert.readB_eq {src : Source} (hsrc : ∀ p, src = .place p → Reaches i P p) (s : State) :
    readB src (g s) = readB src s := by
  cases src with
  | imm v => rfl
  | place p => exact hg.readPlaceB_eq (hsrc p rfl) s

theorem Inert.writeW_comm {p : Place} (hp : Reaches i P p) (v : Word) (s : State) :
    writeW p v (g s) = g (writeW p v s) := by
  cases p with
  | reg r h => exact hg.setReg s hp v
  | addr a => simp only [writeW, State.setMemWord, hg.setMemByte hp]

theorem Inert.writeB_comm {p : Place} (hp : Reaches i P p) (b : Byte) (s : State) :
    writeB p b (g s) = g (writeB p b s) := by
  cases p with
  | reg r h => simp only [writeB, State.setHalf, hg.reg s hp, hg.setReg s hp]
  | addr a => exact hg.setMemByte hp s a b

theorem Inert.writeFlags_comm {w : Nat} (hop : i.op ≠ .mov) (x : AluResult w) (s : State) :
    (g s).writeFlags x = g (s.writeFlags x) := by
  rw [State.writeFlags, hg.flags hop, hg.setFlags hop, State.writeFlags]

/-! ### Preparing an instruction -/

theorem Inert.prepareTwo_map (s : State) :
    prepareTwo i.op i.len i.slot0 i.slot1 (g s) =
      (prepareTwo i.op i.len i.slot0 i.slot1 s).map fun x => (g x.1, x.2) := by
  refine bind_eq_map (hg.advance_map i.len s) fun t _ => ?_
  rw [hg.resolvePlace_eq (fun r hr => .inr (.inl hr)), hg.resolveSource_eq (fun r hr => .inr (.inr (.inl hr)))]
  cases checkShape i.op i.slot0 i.slot1 with
  | error f => rfl
  | ok u =>
    cases resolvePlace i.op 0 i.slot0 t with
    | error f => rfl
    | ok p => cases resolveSource i.op 1 i.slot1 t <;> rfl

theorem Inert.prepareBranch_map (s : State) :
    prepareBranch i.op i.len i.slot0 i.slot1 (g s) =
      (prepareBranch i.op i.len i.slot0 i.slot1 s).map fun x => (g x.1, x.2) := by
  refine bind_eq_map (hg.advance_map i.len s) fun t _ => ?_
  cases checkShape i.op i.slot0 i.slot1 with
  | error f => rfl
  | ok u => cases displacement i.op i.slot0 <;> rfl

/-! ### The meanings -/

theorem Inert.moveW_map (hop : i.op = .mov) (s : State) :
    moveW i.len i.slot0 i.slot1 (g s) = (moveW i.len i.slot0 i.slot1 s).map g := by
  have hprep := hop ▸ hg.prepareTwo_map s
  refine bind_eq_map hprep fun ⟨t, p, src⟩ hv => ?_
  obtain ⟨hp, hsrc⟩ := reaches_of_prepareTwo P (hop ▸ hv)
  simp only [hg.readW_eq hsrc, hg.writeW_comm hp, Except.map]

theorem Inert.moveB_map (hop : i.op = .mov) (s : State) :
    moveB i.len i.slot0 i.slot1 (g s) = (moveB i.len i.slot0 i.slot1 s).map g := by
  have hprep := hop ▸ hg.prepareTwo_map s
  refine bind_eq_map hprep fun ⟨t, p, src⟩ hv => ?_
  obtain ⟨hp, hsrc⟩ := reaches_of_prepareTwo P (hop ▸ hv)
  simp only [hg.readB_eq hsrc, hg.writeB_comm hp, Except.map]

theorem Inert.arithW_map {alu : Word → Word → AluResult 16} {wb : Bool} (hop : i.op ≠ .mov) (s : State) :
    arithW i.op alu wb i.len i.slot0 i.slot1 (g s) = (arithW i.op alu wb i.len i.slot0 i.slot1 s).map g := by
  refine bind_eq_map (hg.prepareTwo_map s) fun ⟨t, p, src⟩ hv => ?_
  obtain ⟨hp, hsrc⟩ := reaches_of_prepareTwo P hv
  simp only [hg.readPlaceW_eq hp, hg.readW_eq hsrc, hg.writeFlags_comm hop, hg.writeW_comm hp, Except.map]
  cases wb <;> rfl

theorem Inert.arithB_map {alu : Byte → Byte → AluResult 8} {wb : Bool} (hop : i.op ≠ .mov) (s : State) :
    arithB i.op alu wb i.len i.slot0 i.slot1 (g s) = (arithB i.op alu wb i.len i.slot0 i.slot1 s).map g := by
  refine bind_eq_map (hg.prepareTwo_map s) fun ⟨t, p, src⟩ hv => ?_
  obtain ⟨hp, hsrc⟩ := reaches_of_prepareTwo P hv
  simp only [hg.readPlaceB_eq hp, hg.readB_eq hsrc, hg.writeFlags_comm hop, hg.writeB_comm hp, Except.map]
  cases wb <;> rfl

theorem Inert.condJump_map {mask : Word} {pol : Bool} (hop : i.op ≠ .mov) (s : State) :
    condJump i.op mask pol i.len i.slot0 i.slot1 (g s) = (condJump i.op mask pol i.len i.slot0 i.slot1 s).map g := by
  refine bind_eq_map (hg.prepareBranch_map s) fun ⟨t, disp⟩ _ => ?_
  simp only [hg.flags hop, hg.applyDisp_map]
  split <;> rfl

theorem Inert.counter_eq (hl : i.op.isLoop = true) (hs : s.params = P) : (g s).counter = s.counter := by
  rw [State.counter, hg.params, hg.reg s (.inr (.inr (.inr ⟨hl, by rw [hs]⟩))), State.counter]

theorem Inert.setCounter_comm (hl : i.op.isLoop = true) (hs : s.params = P) (v : Word) :
    (g s).setCounter v = g (s.setCounter v) := by
  rw [State.setCounter, hg.params, hg.setReg s (.inr (.inr (.inr ⟨hl, by rw [hs]⟩))), State.setCounter]

theorem Inert.decrementCounter_map (hl : i.op.isLoop = true) (hs : s.params = P) :
    decrementCounter (g s) = (decrementCounter s).map g := by
  simp only [decrementCounter, hg.counter_eq hl hs, hg.params, hg.setCounter_comm hl hs]
  split
  · cases s.params.counterUnderflow <;> rfl
  · rfl

theorem Inert.loopStep_map {zpol : Bool} (hop : i.op ≠ .mov) (hl : i.op.isLoop = true) (hs : s.params = P) :
    loopStep i.op zpol i.len i.slot0 i.slot1 (g s) = (loopStep i.op zpol i.len i.slot0 i.slot1 s).map g := by
  refine bind_eq_map (hg.prepareBranch_map s) fun ⟨t, disp⟩ hv => ?_
  obtain ⟨rfl, -⟩ := prepareBranch_next hv
  refine bind_eq_map (hg.decrementCounter_map (s := s.advanced i.len) hl hs) fun u hu => ?_
  have hparams : u.params = P := by
    obtain hd | ⟨hd, -⟩ := decrementCounter_cases (s.advanced i.len)
    · cases hd.symm.trans hu
      exact hs
    · cases hd.symm.trans hu
  simp only [hg.counter_eq hl hparams, hg.flags hop, hg.applyDisp_map]
  split <;> rfl

/-- A change that an instruction does not see goes through it. -/
theorem Inert.exec_mapNext (hs : s.params = P) : exec i (g s) = mapNext g (exec i s) := by
  obtain ⟨m, hm, he⟩ := exec_meaning i
  rw [he, he, mapNext_outcome]
  congr 1
  cases hm with
  | wordMove hop => exact hg.moveW_map hop s
  | byteMove hop => exact hg.moveB_map hop s
  | wordAlu hop => exact hg.arithW_map (by rintro h; simp [h, OpKind.isAlu] at hop) s
  | byteAlu hop => exact hg.arithB_map (by rintro h; simp [h, OpKind.isAlu] at hop) s
  | jump hop => exact hg.condJump_map (OpKind.not_alu_nor_mov_of_isBranch hop).2 s
  | loop hop hl => exact hg.loopStep_map (OpKind.not_alu_nor_mov_of_isBranch hop).2 hl hs

end Through

/-! ### Three changes that are not seen -/

/-- Settles O32: MOV sees no change of FLAGS. -/
theorem movIgnoresFlags : Obligations.MovIgnoresFlags := by
  intro i s f hop
  have hg : Inert i s.params (State.setFlags · f) :=
    { params := fun _ => rfl
      reg := fun _ _ _ => rfl
      setReg := fun _ _ _ _ => rfl
      flags := fun h => absurd hop h
      setFlags := fun h => absurd hop h
      memByte := fun _ _ _ => rfl
      setMemByte := fun _ _ _ _ => rfl }
  exact hg.exec_mapNext rfl

/-- Settles O54: an instruction other than MOV sees no change of Memory. -/
theorem onlyMovReachesMemory : Obligations.OnlyMovReachesMemory := by
  intro i s m hop
  have hg : Inert i s.params (fun t => { t with mem := m }) :=
    { params := fun _ => rfl
      reg := fun _ _ _ => rfl
      setReg := fun _ _ _ _ => rfl
      flags := fun _ _ => rfl
      setFlags := fun _ _ _ => rfl
      memByte := fun h => absurd h hop
      setMemByte := fun h => absurd h hop }
  exact hg.exec_mapNext rfl

/-- Writes of two registers can be made in either order. -/
theorem State.setReg_comm (s : State) {r q : Slot} (h : r ≠ q) (v w : Word) :
    (s.setReg r v).setReg q w = (s.setReg q w).setReg r v := by
  refine State.ext_reg (fun k => ?_) rfl rfl rfl rfl rfl rfl
  simp only [State.reg_setReg]
  split
  next hq => rw [if_neg (hq ▸ h.symm)]
  next => rfl

/-- Settles O55: an instruction sees no change of a register that it does not touch. -/
theorem unnamedRegistersAreInert : Obligations.UnnamedRegistersAreInert := by
  intro i s r v hpc h0 h1 hloop
  have hne {q : Slot} (hq : Touches i s.params q) : q ≠ r := by
    rintro rfl
    obtain rfl | hq | hq | ⟨hl, hq⟩ := hq
    exacts [hpc rfl, h0 hq, h1 hq, hloop hl hq]
  have hg : Inert i s.params (State.setReg · r v) :=
    { params := fun _ => rfl
      reg := fun t _ hq => State.reg_setReg_ne t r _ v (hne hq)
      setReg := fun t _ hq w => State.setReg_comm t (hne hq).symm v w
      flags := fun _ _ => rfl
      setFlags := fun _ _ _ => rfl
      memByte := fun _ _ _ => rfl
      setMemByte := fun _ _ _ _ => rfl }
  exact hg.exec_mapNext rfl

end Sys2Proof.Machine
end
